-- ==== Sys2Proof/Word.lean ====
section
/-! DEFINITION. The word types of the mahowii fast-math core (rules R6, R7: operand and response words are 32 bits,
operation codes 4 bits, ROM entries 16 bits; bit 0 is the least significant). -/

namespace Sys2Proof

/-- An operand or response word (`WORD` = 32, rule R6). -/
abbrev Word := BitVec 32

/-- An operation code (`OPW` = 4, rule R6). -/
abbrev OpCode := BitVec 4

/-- One entry of the sine ROM (`ROM_WIDTH` = 16, rules R6 and R60). -/
abbrev Half := BitVec 16

end Sys2Proof
end

