-- ==== Sys2Proof/Syntax.lean ====
section
/-! DEFINITION. The operation set `mahowii-core` revision 1 (rule R82) and the request that carries one operation
(rule R80). -/

namespace Sys2Proof

/-- The eleven operations of rule R82. Each carries the two operand words of its request whole: a request always has
both (rule R80), and an ignored word or ignored upper half may hold any value (rule R83), so no bit is dropped here. -/
inductive Instr where
  /-- op 0, `SINP`: `a` = F32 x in radians, `b` ignored (R100). -/
  | sinp (a b : Word)
  /-- op 1, `COSP`: `a` = F32 x in radians, `b` ignored (R101). -/
  | cosp (a b : Word)
  /-- op 2, `SINLUT`: `a` = S16 angle in decidegrees, `b` ignored (R125). -/
  | sinlut (a b : Word)
  /-- op 3, `COSLUT`: `a` = S16 angle in decidegrees, `b` ignored (R126). -/
  | coslut (a b : Word)
  /-- op 4, `ATAN`: `a` = F32 x, `b` ignored (R150). -/
  | atan (a b : Word)
  /-- op 5, `ATAN2`: `a` = S32 y, `b` = S32 x (R155). -/
  | atan2 (a b : Word)
  /-- op 6, `ATAN2V2`: `a` = S32 y, `b` = S32 x (R156). -/
  | atan2v2 (a b : Word)
  /-- op 7, `ISQRT`: `a` = F32 y, `b` ignored (R195). -/
  | isqrt (a b : Word)
  /-- op 8, `INVSQRT`: `a` = F32 y, `b` ignored (R196). -/
  | invsqrt (a b : Word)
  /-- op 9, `INVSQRTV2`: `a` = F32 y, `b` ignored (R197). -/
  | invsqrtv2 (a b : Word)
  /-- op 10, `MUL`: `a` = S16 multiplicand, `b` = S16 multiplier (R220). -/
  | mul (a b : Word)
  deriving DecidableEq, Repr

/-- A request of format `REQ` (rule R80): the operation code and two operand words, each on a port of its own
(rule R35). -/
structure Request where
  op : OpCode
  a : Word
  b : Word
  deriving DecidableEq, Repr

end Sys2Proof
end

