-- ==== Sys2Proof/WellFormed.lean ====
section
/-! DEFINITION. Which instructions and which requests are well formed (rules R84, R86). -/

namespace Sys2Proof

/-- No operand value makes a request illegal (rule R86), so every operation with any two words is well formed. -/
def Instr.wf : Instr → Bool
  | .sinp _ _ => true
  | .cosp _ _ => true
  | .sinlut _ _ => true
  | .coslut _ _ => true
  | .atan _ _ => true
  | .atan2 _ _ => true
  | .atan2v2 _ _ => true
  | .isqrt _ _ => true
  | .invsqrt _ _ => true
  | .invsqrtv2 _ _ => true
  | .mul _ _ => true

/-- A request names an operation exactly when its code is not one of the reserved codes 11 to 15 (rules R82, R84). -/
def Request.wf (r : Request) : Bool :=
  decide (r.op.toNat < 11)

end Sys2Proof
end

