-- ==== Sys2Proof/Decode.lean ====
section
/-! DEFINITION. Decoding a request into an operation and encoding it back (rules R80 to R84), and the packing of a
request into one number that the host's table numbering needs. -/

namespace Sys2Proof

/-- Why a request names no operation. -/
inductive DecodeReject where
  /-- The code is one of 11 to 15 (rule R84). Safe: the block still accepts and answers such a request
  (see `Machine.acceptRequest`). -/
  | reservedOp (op : OpCode)
  deriving DecidableEq, Repr

/-- The operation a request names: `op` alone selects it (rules R81, R82). -/
def decode (r : Request) : Except DecodeReject Instr :=
  match r.op.toNat with
  | 0 => .ok (.sinp r.a r.b)
  | 1 => .ok (.cosp r.a r.b)
  | 2 => .ok (.sinlut r.a r.b)
  | 3 => .ok (.coslut r.a r.b)
  | 4 => .ok (.atan r.a r.b)
  | 5 => .ok (.atan2 r.a r.b)
  | 6 => .ok (.atan2v2 r.a r.b)
  | 7 => .ok (.isqrt r.a r.b)
  | 8 => .ok (.invsqrt r.a r.b)
  | 9 => .ok (.invsqrtv2 r.a r.b)
  | 10 => .ok (.mul r.a r.b)
  | _ => .error (.reservedOp r.op)

/-- The request that issues an operation (rule R82's codes). -/
def encode : Instr → Request
  | .sinp a b => ⟨0b0000#4, a, b⟩
  | .cosp a b => ⟨0b0001#4, a, b⟩
  | .sinlut a b => ⟨0b0010#4, a, b⟩
  | .coslut a b => ⟨0b0011#4, a, b⟩
  | .atan a b => ⟨0b0100#4, a, b⟩
  | .atan2 a b => ⟨0b0101#4, a, b⟩
  | .atan2v2 a b => ⟨0b0110#4, a, b⟩
  | .isqrt a b => ⟨0b0111#4, a, b⟩
  | .invsqrt a b => ⟨0b1000#4, a, b⟩
  | .invsqrtv2 a b => ⟨0b1001#4, a, b⟩
  | .mul a b => ⟨0b1010#4, a, b⟩

/-- The 68 bits of a request as one number: `op` in bits 3:0, `a` in bits 35:4, `b` in bits 67:36. DESIGN CHOICE
(log entry 1): rule R80 says the three fields are not packed; the opcode table numbers `op` from bit 0. -/
def packRequest (r : Request) : BitVec 68 :=
  r.b ++ (r.a ++ r.op)

/-- The request whose packed bits are `w` (log entry 1). -/
def unpackRequest (w : BitVec 68) : Request :=
  ⟨w.extractLsb' 0 4, w.extractLsb' 4 32, w.extractLsb' 36 32⟩

/-- The request read from the low `nbits` bits of `w`; all its other bits are 0. -/
def requestOfTableWord (nbits w : Nat) : Request :=
  unpackRequest (BitVec.ofNat 68 (w % 2 ^ nbits))

/-- What the decoder reads from a word in the opcode table's numbering; `none` where the code is reserved. -/
def decodeTableWord (nbits w : Nat) : Option Instr :=
  match decode (requestOfTableWord nbits w) with
  | .ok i => some i
  | .error _ => none

end Sys2Proof
end

