-- ==== Sys2Proof/Config.lean ====
section
/-! DEFINITION. The parameters of rule R6: the constants the spec fixes, and the open ones as constants without a
body, so that no proof can see a value of them. -/

namespace Sys2Proof.Config

/-! ## Open parameters -/

/-- How far `MAX_INFLIGHT` exceeds 1 (OPEN, rules R6 and R37). -/
opaque extraInflight : Nat

/-- `MAX_INFLIGHT`, an open integer at least 1 (rule R6). -/
def maxInflight : Nat := extraInflight + 1

/-- How far `LATENCY` exceeds 1 (OPEN, rules R6 and R38). -/
opaque extraLatency : Nat

/-- `LATENCY`, an open integer at least 1 (rule R6). -/
def latency : Nat := extraLatency + 1

/-- Whether the block offers the oldest response before the latency bound forces it, drawn for each clock edge and each
code and operand words of the oldest request (rule R258: the latency may differ between op codes and between operands
within the bound). -/
opaque offerEarly : Nat → OpCode → Word → Word → Bool

/-- The word on `rsp_r` after an edge that leaves `rsp_valid` = 0, drawn once for each clock edge: any value, read
by no rule (rule R250). -/
opaque idleWord : Nat → Word

/-- The sign bit of `NAN_RESULT` (OPEN, rule R14). -/
opaque nanSign : Bool

/-- The fraction of `NAN_RESULT`, but for 0, which is no NaN's fraction (OPEN, rules R10 and R14). -/
opaque nanFraction : BitVec 23

/-- `NAN_RESULT`: the encoding of every NaN an arithmetic step produces, an arbitrary NaN encoding (rule R14; log
entry 5). -/
@[irreducible] def nanResult : Word :=
  BitVec.ofBool nanSign ++ (0xFF#8 ++ (if nanFraction = 0 then 1#23 else nanFraction))

/-- `RESERVED_OP_RESULT` (OPEN, rule R84): the response word to a reserved code, a function of the request alone
(rule R39). -/
opaque reservedOpResult : OpCode → Word → Word → Word

/-- `ATAN2_ZERO_RESULT` (OPEN, rule R161): the response word of ATAN2 (op 5) and ATAN2V2 (op 6) at y = x = 0. -/
opaque atan2ZeroResult : OpCode → Word

/-- The unspecified response word of ISQRT, INVSQRT and INVSQRTV2 outside their domain (rules R198, R231), a function
of the code and of `a` (rules R39 and R83: `b` is ignored). -/
opaque isqrtDomainResult : OpCode → Word → Word

/-! ## The binary32 constants of rule R17, by their encodings -/

/-- `INV_PI`, nearest to 1/π. -/
def invPi : Word := 0x3EA2F983#32
/-- `HALF` = 0.5. -/
def half : Word := 0x3F000000#32
/-- `C24` = 25165824. -/
def c24 : Word := 0x4BC00000#32
/-- `K_3_1`, 3.1. -/
def k3_1 : Word := 0x40466666#32
/-- `K_3_6`, 3.6. -/
def k3_6 : Word := 0x40666666#32
/-- `PI_1800`, nearest to π/1800. -/
def pi1800 : Word := 0x3AE4C388#32
/-- `K_1000`, 1000. -/
def k1000 : Word := 0x447A0000#32
/-- `K_ATAN`, 0.596227. -/
def kAtan : Word := 0x3F18A255#32
/-- `ONE`, 1. -/
def one : Word := 0x3F800000#32
/-- `K_PI2`, the literal 1.5708. -/
def kPi2 : Word := 0x3FC90FF9#32
/-- `K_A2N`, 2046.43. -/
def kA2n : Word := 0x44FFCDC3#32
/-- `K_A2D`, 3.5714. -/
def kA2d : Word := 0x406491D1#32
/-- `K_573`, 573. -/
def k573 : Word := 0x440F4000#32
/-- `K_028`, 0.28. -/
def k028 : Word := 0x3E8F5C29#32
/-- `K_1_5`, 1.5. -/
def k1_5 : Word := 0x3FC00000#32
/-- `K_0_5`, 0.5. -/
def k0_5 : Word := 0x3F000000#32
/-- `K_3`, 3. -/
def k3 : Word := 0x40400000#32
/-- `K_V2A`, 0.703952253. -/
def kV2a : Word := 0x3F343637#32
/-- `K_V2B`, 2.38924456. -/
def kV2b : Word := 0x4018E962#32

/-- The magic constant of `ISQRT_CFG` and `INVSQRT_CFG` (rule R190). -/
def magicNewton : Word := 0x5F3759DF#32
/-- The magic constant of `INVSQRTV2_CFG` (rule R190). -/
def magicV2 : Word := 0x5F1FFFF9#32

/-- `SIN_TABLE`: entry d is 1000·sin(d°) to the nearest integer, ten entries a line (rule R120). -/
def sinTable : List Half :=
  [0, 17, 35, 52, 70, 87, 105, 122, 139, 156] ++
  [174, 191, 208, 225, 242, 259, 276, 292, 309, 326] ++
  [342, 358, 375, 391, 407, 423, 438, 454, 469, 485] ++
  [500, 515, 530, 545, 559, 574, 588, 602, 616, 629] ++
  [643, 656, 669, 682, 695, 707, 719, 731, 743, 755] ++
  [766, 777, 788, 799, 809, 819, 829, 839, 848, 857] ++
  [866, 875, 883, 891, 899, 906, 914, 921, 927, 934] ++
  [940, 946, 951, 956, 961, 966, 970, 974, 978, 982] ++
  [985, 988, 990, 993, 995, 996, 998, 999, 999, 1000] ++
  [1000]

end Sys2Proof.Config
end

