-- ==== Sys2Proof/Machine/Float.lean ====
section
/-! DEFINITION. The binary32 primitives of rules R10 to R16: exact arithmetic on whole numbers of units of 2^-149,
then one rounding. -/

namespace Sys2Proof.Machine

/-- A binary32 datum (rule R10). A finite datum is a sign and a magnitude in units of 2^-149, of which every finite
datum, subnormals included, is a whole number. A NaN keeps its encoding. -/
inductive F32 where
  | nan (w : Word)
  | inf (neg : Bool)
  | fin (neg : Bool) (mag : Nat)
  deriving DecidableEq, Repr

/-- How many units make 1.0. -/
def unitsPerOne : Nat := 2 ^ 149

/-- The NaN that an arithmetic step produces (rule R14). -/
def nanF : F32 := .nan Config.nanResult

/-! ## Encodings (rule R10) -/

/-- The power of two, in units, between neighbouring data of the binade that holds `q` units: 0 for subnormals and
the first normal binade, whose significands have at most 24 bits. -/
def binade (q : Nat) : Nat := Nat.log2 q - 23

/-- `f32(w)`: the datum that `w` encodes (rule R10). -/
def f32 (w : Word) : F32 :=
  let neg := w.getLsbD 31
  let e := (w.extractLsb' 23 8).toNat
  let frac := (w.extractLsb' 0 23).toNat
  if e = 255 then (if frac = 0 then .inf neg else .nan w)
  else if e = 0 then .fin neg frac
  else .fin neg ((2 ^ 23 + frac) * 2 ^ (e - 1))

/-- The encoding of a finite magnitude less its sign bit: exponent field and fraction of a normal value run on from
those of the value below it. -/
def magBits (mag : Nat) : Nat :=
  binade mag * 2 ^ 23 + mag / 2 ^ binade mag

/-- A word from its sign bit and its other 31 bits. -/
def signed31 (neg : Bool) (low : Nat) : Word :=
  BitVec.ofBool neg ++ BitVec.ofNat 31 low

/-- `bits(f)`: the encoding of a datum (rule R10). -/
def bits : F32 → Word
  | .nan w => w
  | .inf neg => signed31 neg 0x7F800000
  | .fin neg mag => signed31 neg (magBits mag)

/-! ## Rounding (rules R11 to R13) -/

/-- `n / d` to the nearest whole number, ties to even. -/
def divEven (n d : Nat) : Nat :=
  let q := n / d
  let r := n % d
  if 2 * r < d then q else if d < 2 * r then q + 1 else q + q % 2

/-- The magnitude, in units, nearest to `n / d` units under roundTiesToEven (rule R11), with gradual underflow
(rule R13); `none` where it rounds above the largest finite value (rule R12). -/
def roundMag (n d : Nat) : Option Nat :=
  let e := binade (n / d)
  if 253 < e then none
  else
    let m := divEven n (d * 2 ^ e)
    if e = 253 ∧ m = 2 ^ 24 then none else some (m * 2 ^ e)

/-- The datum of sign `neg` nearest to `n / d` units. -/
def roundF (neg : Bool) (n d : Nat) : F32 :=
  match roundMag n d with
  | some mag => .fin neg mag
  | none => .inf neg

/-! ## Arithmetic (rules R11 to R15) -/

/-- Sign flip, used to write a subtraction as an addition; the sign of a NaN operand is not read. -/
def fneg : F32 → F32
  | .nan w => .nan w
  | .inf s => .inf (!s)
  | .fin s m => .fin (!s) m

/-- `fadd(p, q)` (rules R11, R12). -/
def fadd : F32 → F32 → F32
  | .nan _, _ => nanF
  | _, .nan _ => nanF
  | .inf s, .inf t => if s = t then .inf s else nanF
  | .inf s, .fin _ _ => .inf s
  | .fin _ _, .inf t => .inf t
  | .fin s m, .fin t k =>
    if s = t then roundF s (m + k) 1
    else if m = k then .fin false 0
    else if k < m then roundF s (m - k) 1
    else roundF t (k - m) 1

/-- `fsub(p, q)` (rules R11, R12). -/
def fsub (p q : F32) : F32 := fadd p (fneg q)

/-- `fmul(p, q)` (rules R11, R12). -/
def fmul : F32 → F32 → F32
  | .nan _, _ => nanF
  | _, .nan _ => nanF
  | .inf s, .inf t => .inf (s ^^ t)
  | .inf s, .fin t k => if k = 0 then nanF else .inf (s ^^ t)
  | .fin s m, .inf t => if m = 0 then nanF else .inf (s ^^ t)
  | .fin s m, .fin t k => roundF (s ^^ t) (m * k) unitsPerOne

/-- `fdiv(p, q)` (rules R11, R12). -/
def fdiv : F32 → F32 → F32
  | .nan _, _ => nanF
  | _, .nan _ => nanF
  | .inf _, .inf _ => nanF
  | .inf s, .fin t _ => .inf (s ^^ t)
  | .fin s _, .inf t => .fin (s ^^ t) 0
  | .fin s m, .fin t k =>
    if k = 0 then (if m = 0 then nanF else .inf (s ^^ t))
    else roundF (s ^^ t) (m * unitsPerOne) k

/-- `fabs(f)`: clears the sign bit of any datum, NaNs included (rule R15). -/
def fabs : F32 → F32
  | .nan w => .nan (w &&& 0x7FFFFFFF#32)
  | .inf _ => .inf false
  | .fin _ m => .fin false m

/-- `f32(bits(f) OR (neg << 31))`: ATAN's recombination of a sign bit (rule R150). -/
def forSign (neg : Bool) : F32 → F32
  | .nan w => .nan (w ||| signed31 neg 0)
  | .inf s => .inf (s || neg)
  | .fin s m => .fin (s || neg) m

/-! ## Conversions (rule R16) -/

/-- `i2f(n)`: the datum nearest to an integer. -/
def i2f (n : Int) : F32 := roundF (decide (n < 0)) (n.natAbs * unitsPerOne) 1

/-- `ftrunc(f)`: a finite datum rounded toward zero; no value otherwise. -/
def ftrunc : F32 → Option Int
  | .nan _ => none
  | .inf _ => none
  | .fin neg mag =>
    let t : Int := ↑(mag / unitsPerOne)
    some (if neg then -t else t)

end Sys2Proof.Machine
end

