-- ==== Sys2Proof/Machine/Operands.lean ====
section
/-! DEFINITION. The operand and result forms of rules R83 and R85. No operand is an immediate and no addressing mode
exists (rules R83 and R92); an ignored word is simply not read. -/

namespace Sys2Proof.Machine

/-- Operand form `F32`: the whole word as a binary32 encoding (rules R18, R83). -/
def opF32 (w : Word) : F32 := f32 w

/-- Operand form `S16`: bits [15:0] as a signed integer, bits [31:16] ignored (rules R8, R83). -/
def opS16 (w : Word) : Int := (w.extractLsb' 0 16).toInt

/-- Operand form `S32`: the whole word as a signed integer (rules R8, R83). -/
def opS32 (w : Word) : Int := w.toInt

/-- `wrap16(v)`: the value in [-32768, 32767] congruent to `v` modulo 2^16 (rule R8). -/
def wrap16 (v : Int) : Int := (v + 32768) % 65536 - 32768

/-- Result form of the floating-point operations: the encoding (rules R18, R85). -/
def resF32 (f : F32) : Word := bits f

/-- `sext_32(a)` of a signed angle: the result form of ATAN2 and ATAN2V2 (rules R8, R85). -/
def resAngle (a : Int) : Word := BitVec.ofInt 32 a

/-- `u32(p)` of the product: the result form of MUL (rules R8, R85). -/
def resProduct (p : Int) : Word := BitVec.ofInt 32 p

end Sys2Proof.Machine
end

