-- ==== Sys2Proof/Machine/Flags.lean ====
section
/-! DEFINITION. The block has no flag, condition code or status register, IEEE exception flags included (rules R14,
R33). Its one status is the model bit `faulted` (rule R42): this file holds the conditions that set it (rule R231). -/

namespace Sys2Proof.Machine

/-- The domain of ISQRT, INVSQRT and INVSQRTV2: y > 0 and y finite (rule R198). -/
def isqrtInDomain (y : F32) : Bool :=
  match y with
  | .nan _ => false
  | .inf _ => false
  | .fin neg mag => !neg && decide (0 < mag)

/-- The violating operands of ATAN2 and ATAN2V2: y = 0 and x = 0 (rule R161). -/
def atan2IsZero (y x : Int) : Bool := decide (y = 0 ∧ x = 0)

end Sys2Proof.Machine
end

