-- ==== Sys2Proof/Machine/State.lean ====
section
/-! DEFINITION. The state of the block (rule R30), the model's own fields beside it (rule R42 and INVENTORY.md), the
reasons a step can stop, and the reset state (rule R250). -/

namespace Sys2Proof.Machine

/-! ## The sine ROM -/

/-- The block's one address space: ROM entries by index, each a whole 16-bit word (rules R60 and R63: it has no
bytes). -/
abbrev Memory := List Half

/-- The invariants of rule R121: 91 entries, never decreasing, the first 0 and the last 1000. -/
def Memory.wf (m : Memory) : Bool :=
  decide (m.length = 91) &&
    (List.range 90).all (fun i => decide ((m.getD i 0).toNat ≤ (m.getD (i + 1) 0).toNat)) &&
    decide (m.getD 0 0 = 0) && decide (m.getD 90 0 = 1000)

/-! ## Transactions, violations and ports -/

/-- An accepted request with its response word, which is a function of the request and the constant ROM alone
(rule R39), so it is computed when the request is accepted (log entry 2). -/
structure Transaction where
  req : Request
  rsp : Word
  deriving DecidableEq, Repr

/-- The conditions under which the source leaves a response unspecified (rules R231, R232). -/
inductive Condition where
  /-- ISQRT, INVSQRT, INVSQRTV2 with y ≤ 0 or y not finite (rule R198). -/
  | isqrtDomain
  /-- ATAN2, ATAN2V2 with y = x = 0 (rule R161). -/
  | atan2Zero
  /-- An operation code in 11 to 15 (rule R84). -/
  | reservedOp (op : OpCode)
  deriving DecidableEq, Repr

/-- The info of `PreconditionViolation(info)`: the condition and the request (rule R232). -/
structure Violation where
  cond : Condition
  req : Request
  deriving DecidableEq, Repr

/-- The input ports as one rising edge of `clk` samples them (rule R35). -/
structure Pins where
  rst : Bool
  reqValid : Bool
  req : Request
  rspReady : Bool
  deriving DecidableEq, Repr

/-! ## The state -/

/-- The state between two rising edges of `clk`. -/
structure State where
  /-- `ROM`, the sine table (rules R30 and R60). -/
  rom : Memory
  /-- `inflight`: accepted requests whose responses are not yet taken, oldest first (rule R30). -/
  inflight : List Transaction
  /-- `rsp_valid` (rules R30, R35 and R36). -/
  rspValid : Bool
  /-- The word on `rsp_r` (rules R30, R35 and R36). -/
  rspR : Word
  /-- The model bit `faulted` (rule R42). -/
  faulted : Bool
  /-- The model's own: the info of every precondition violation raised, oldest first (rule R232; log entry 3). -/
  violations : List Violation
  /-- The model's own: how many edges the oldest transaction has waited to be offered (rule R38; log entry 6). -/
  age : Nat
  /-- The model's own: the request the host holds that is not yet accepted, which rule R38 obliges it to keep (log
  entry 8). -/
  pending : Option Request
  /-- The model's own: the requests answered and the words the host took since reset, oldest first (rule R65). -/
  taken : List Transaction
  /-- The model's own: what the host drives on the input ports at the coming edges, next first (log entry 7). -/
  schedule : List Pins
  /-- The model's own: the edges so far, the counter of the free values drawn once an edge (log entries 6 and 9). -/
  draws : Nat
  deriving DecidableEq, Repr

/-! ## Stops -/

/-- Why the machine stops with a fault. Neither is a fault of the block, which has none (rule R230). -/
inductive Fault where
  /-- A ROM index outside the table (rule R61, item I10). Raised by SINLUT and COSLUT, only over a ROM that breaks
  `Memory.wf`. Safe: the model stops. -/
  | romIndex (index : Nat)
  /-- `ftrunc` of a value that is not finite (rules R16, R160). Raised by ATAN2 and ATAN2V2; rule R160 says no input
  reaches it. Safe: the model stops. -/
  | ftruncNotFinite
  deriving DecidableEq, Repr

/-- Why the machine gives no meaning. -/
inductive Refusal where
  /-- An instruction without a meaning, raised by `exec` only. No arm of `exec` raises it now. Safe. -/
  | notModelled (mnemonic : String)
  /-- The host changed or withdrew a request before it was accepted (rules R38 and R257, item I9). Raised by `edge`.
  Safe: the spec gives such a run no meaning. -/
  | hostBrokeHold
  deriving DecidableEq, Repr

/-! ## Reset -/

/-- The state right after reset (rule R250): nothing in flight, nothing offered, the ROM as always. `rsp_r` is 0 by
DESIGN CHOICE (log entry 4); no rule reads it while `rsp_valid` = 0. -/
def State.reset : State where
  rom := Config.sinTable
  inflight := []
  rspValid := false
  rspR := 0
  faulted := false
  violations := []
  age := 0
  pending := none
  taken := []
  schedule := []
  draws := 0

end Sys2Proof.Machine
end

