-- ==== Sys2Proof/Machine/Ops.lean ====
section
/-! DEFINITION. The operations over State that every meaning shares: reading the ROM, accepting a request with its
response, and raising a precondition violation (the one exceptional event of the model; the block has no trap entry
and no trap return, rules R235 and R236). -/

namespace Sys2Proof.Machine

/-- `ROM[i]` as an unsigned integer (rule R61); `none` outside the table. -/
def romRead (m : Memory) (i : Nat) : Option Nat :=
  match m[i]? with
  | some e => some e.toNat
  | none => none

/-- Accepting a request appends it to `inflight`, here with the response word it will be answered with (rules R35,
R39, R42). -/
def accept (r : Request) (w : Word) (s : State) : State :=
  { s with inflight := s.inflight ++ [⟨r, w⟩] }

/-- `raise PreconditionViolation(info)`: the request is accepted and will be answered in order with an unspecified
word, and the model sets `faulted` and records the info (rules R230, R232, R235; log entry 3). -/
def raiseViolation (c : Condition) (r : Request) (w : Word) (s : State) : State :=
  { accept r w s with faulted := true, violations := s.violations ++ [⟨c, r⟩] }

/-- Accepts a request whose response word has been computed, or stops where the computation did (rule R39). -/
def answer (r : Request) (res : Except Fault Word) (s : State) : Host.Outcome State Fault Refusal :=
  match res with
  | .ok w => .next (accept r w s)
  | .error f => .fault f

end Sys2Proof.Machine
end

