-- ==== Sys2Proof/Machine/Arctan.lean ====
section
/-! DEFINITION. ATAN, ATAN2 and ATAN2V2 (rules R150 to R156, R161). -/

namespace Sys2Proof.Machine

/-- The response word of ATAN (rule R150). -/
def atanWord (a : Word) : Word :=
  let x := opF32 a
  let bx := fabs (fmul (f32 Config.kAtan) x)
  let x2 := fmul x x
  let num := fadd bx x2
  let den := fadd (fadd (f32 Config.one) bx) num
  let q := fdiv num den
  let qs := forSign (a.getLsbD 31) q
  resF32 (fmul qs (f32 Config.kPi2))

/-- `RAT_V1(z)` (rule R154). -/
def ratV1 (z : F32) : F32 :=
  let nu := fmul (f32 Config.kA2n) z
  let de := fadd (f32 Config.kA2d) (fmul z z)
  fdiv nu de

/-- `RAT_V2(z)` (rule R154). -/
def ratV2 (z : F32) : F32 :=
  let nu := fmul (f32 Config.k573) z
  let de := fadd (f32 Config.one) (fmul (f32 Config.k028) (fmul z z))
  fdiv nu de

/-- `z` of `A2CORE`: y/x in the small-ratio branch, x/y in the large-ratio branch (rule R153). -/
def a2Ratio (y x : Int) : F32 :=
  if y.natAbs < x.natAbs then fdiv (i2f y) (i2f x) else fdiv (i2f x) (i2f y)

/-- The integer adjustments at the end of `A2CORE` (rule R153). -/
def a2Adjust (y x a : Int) : Int :=
  if y.natAbs < x.natAbs then
    if x < 0 then (if y < 0 then a - 1800 else a + 1800) else a
  else
    if y < 0 then 900 - a - 1800 else 900 - a

/-- `A2CORE(y, x, RAT)` past its precondition check (rule R153). -/
def a2core (rat : F32 → F32) (y x : Int) : Except Fault Int :=
  match ftrunc (rat (a2Ratio y x)) with
  | some a => .ok (a2Adjust y x a)
  | none => .error .ftruncNotFinite

/-- The response word of an angle encoder past its precondition check (rules R155, R156). -/
def a2Word (rat : F32 → F32) (a b : Word) : Except Fault Word :=
  match a2core rat (opS32 a) (opS32 b) with
  | .ok angle => .ok (resAngle angle)
  | .error x => .error x

/-- `ATAN` (rule R150). -/
def execAtan (a b : Word) (s : State) : Host.Outcome State Fault Refusal :=
  answer ⟨4, a, b⟩ (.ok (atanWord a)) s

/-- `ATAN2` (rules R155 and R161). -/
def execAtan2 (a b : Word) (s : State) : Host.Outcome State Fault Refusal :=
  if atan2IsZero (opS32 a) (opS32 b) then
    .next (raiseViolation .atan2Zero ⟨5, a, b⟩ (Config.atan2ZeroResult 5) s)
  else answer ⟨5, a, b⟩ (a2Word ratV1 a b) s

/-- `ATAN2V2` (rules R156 and R161). -/
def execAtan2v2 (a b : Word) (s : State) : Host.Outcome State Fault Refusal :=
  if atan2IsZero (opS32 a) (opS32 b) then
    .next (raiseViolation .atan2Zero ⟨6, a, b⟩ (Config.atan2ZeroResult 6) s)
  else answer ⟨6, a, b⟩ (a2Word ratV2 a b) s

end Sys2Proof.Machine
end

