-- ==== Sys2Proof/Machine/InvSqrt.lean ====
section
/-! DEFINITION. ISQRT, INVSQRT and INVSQRTV2 (rules R190 to R198). -/

namespace Sys2Proof.Machine

/-- `SEED(y, M)` from the encoding of y: a logical shift and a subtraction modulo 2^32 (rule R191). -/
def seed (w m : Word) : F32 := f32 (m - (w >>> 1))

/-- `FORM_A(y, r)` (rule R192). -/
def formA (y r : F32) : F32 :=
  let h := fmul (f32 Config.k0_5) y
  let t := fmul (fmul h r) r
  let u := fsub (f32 Config.k1_5) t
  fmul r u

/-- `FORM_B(y, r)` (rule R192). -/
def formB (y r : F32) : F32 :=
  let t := fmul (fmul y r) r
  let u := fsub (f32 Config.k3) t
  fmul (fmul (f32 Config.k0_5) r) u

/-- `FORM_K(y, r)` (rule R192). -/
def formK (y r : F32) : F32 :=
  let t := fmul (fmul y r) r
  let u := fsub (f32 Config.kV2b) t
  fmul (fmul (f32 Config.kV2a) r) u

/-- The response word of ISQRT inside its domain (rule R195). -/
def isqrtWord (a : Word) : Word :=
  resF32 (formA (opF32 a) (seed a Config.magicNewton))

/-- The response word of INVSQRT inside its domain (rule R196). -/
def invsqrtWord (a : Word) : Word :=
  resF32 (formB (opF32 a) (seed a Config.magicNewton))

/-- The response word of INVSQRTV2 inside its domain (rule R197). -/
def invsqrtv2Word (a : Word) : Word :=
  resF32 (formK (opF32 a) (seed a Config.magicV2))

/-- `ISQRT` (rules R195 and R198). -/
def execIsqrt (a b : Word) (s : State) : Host.Outcome State Fault Refusal :=
  if isqrtInDomain (opF32 a) then answer ⟨7, a, b⟩ (.ok (isqrtWord a)) s
  else .next (raiseViolation .isqrtDomain ⟨7, a, b⟩ (Config.isqrtDomainResult 7 a) s)

/-- `INVSQRT` (rules R196 and R198). -/
def execInvsqrt (a b : Word) (s : State) : Host.Outcome State Fault Refusal :=
  if isqrtInDomain (opF32 a) then answer ⟨8, a, b⟩ (.ok (invsqrtWord a)) s
  else .next (raiseViolation .isqrtDomain ⟨8, a, b⟩ (Config.isqrtDomainResult 8 a) s)

/-- `INVSQRTV2` (rules R197 and R198). -/
def execInvsqrtv2 (a b : Word) (s : State) : Host.Outcome State Fault Refusal :=
  if isqrtInDomain (opF32 a) then answer ⟨9, a, b⟩ (.ok (invsqrtv2Word a)) s
  else .next (raiseViolation .isqrtDomain ⟨9, a, b⟩ (Config.isqrtDomainResult 9 a) s)

end Sys2Proof.Machine
end

