-- ==== Sys2Proof/Machine/Multiply.lean ====
section
/-! DEFINITION. MUL (rules R220, R221). -/

namespace Sys2Proof.Machine

/-- The response word of MUL: the exact product of the two signed 16-bit operands (rule R220). -/
def mulWord (a b : Word) : Word := resProduct (opS16 a * opS16 b)

/-- `MUL` (rule R220). -/
def execMul (a b : Word) (s : State) : Host.Outcome State Fault Refusal :=
  answer ⟨10, a, b⟩ (.ok (mulWord a b)) s

end Sys2Proof.Machine
end

