-- ==== Sys2Proof/Machine/TrigLut.lean ====
section
/-! DEFINITION. SINLUT and COSLUT (rules R122, R125, R126). -/

namespace Sys2Proof.Machine

/-- Steps 1 and 2 of `SLUT`: the magnitude of the angle, reduced modulo 3600 (rule R122). -/
def lutMagnitude (angle : Int) : Nat :=
  let u := angle.natAbs
  if 3600 ≤ u then u % 3600 else u

/-- Step 3 of `SLUT`: the quadrant's sign (true for -1) and the folded angle (rule R122). -/
def lutFold (u : Nat) : Bool × Nat :=
  if u ≤ 900 then (false, u)
  else if u ≤ 1800 then (false, 1800 - u)
  else if u ≤ 2700 then (true, u - 1800)
  else (true, 3600 - u)

/-- An integer magnitude under a sign (true for -1). -/
def withSign (neg : Bool) (v : Nat) : Int := if neg then -(v : Int) else v

/-- `SLUT(angle)` (rule R122). -/
def slut (rom : Memory) (angle : Int) : Except Fault F32 :=
  let q := lutFold (lutMagnitude angle)
  let s := decide (angle < 0) ^^ q.1
  let v := q.2
  if v < 105 then .ok (fmul (i2f (withSign s v)) (f32 Config.pi1800))
  else
    match romRead rom (v / 10) with
    | some e => .ok (fdiv (i2f (withSign s e)) (f32 Config.k1000))
    | none => .error (.romIndex (v / 10))

/-- The response word of SINLUT (rule R125). -/
def sinlutWord (rom : Memory) (a : Word) : Except Fault Word :=
  match slut rom (opS16 a) with
  | .ok f => .ok (resF32 f)
  | .error x => .error x

/-- The response word of COSLUT (rule R126): the shifted angle is wrapped to 16 bits. -/
def coslutWord (rom : Memory) (a : Word) : Except Fault Word :=
  match slut rom (wrap16 (900 - opS16 a)) with
  | .ok f => .ok (resF32 f)
  | .error x => .error x

/-- `SINLUT` (rule R125). -/
def execSinlut (a b : Word) (s : State) : Host.Outcome State Fault Refusal :=
  answer ⟨2, a, b⟩ (sinlutWord s.rom a) s

/-- `COSLUT` (rule R126). -/
def execCoslut (a b : Word) (s : State) : Host.Outcome State Fault Refusal :=
  answer ⟨3, a, b⟩ (coslutWord s.rom a) s

end Sys2Proof.Machine
end

