-- ==== Sys2Proof/Machine/TrigPoly.lean ====
section
/-! DEFINITION. SINP and COSP (rules R100 to R103). -/

namespace Sys2Proof.Machine

/-- `FOLD(t)` (rule R102). -/
def fold (t : F32) : F32 :=
  let p := fmul t (fabs t)
  let y := fsub t p
  let q := fmul (f32 Config.k3_6) (fabs y)
  let s := fadd (f32 Config.k3_1) q
  fmul y s

/-- `WRAP(t)` (rule R103). -/
def wrap (t : F32) : F32 :=
  let z := fadd t (f32 Config.c24)
  let w := fsub z (f32 Config.c24)
  fsub t w

/-- The response word of SINP (rule R100): no range reduction. -/
def sinpWord (a : Word) : Word :=
  resF32 (fold (fmul (opF32 a) (f32 Config.invPi)))

/-- The response word of COSP (rule R101): the quarter-phase shift, then the wrap, then the fold. -/
def cospWord (a : Word) : Word :=
  let t0 := fmul (opF32 a) (f32 Config.invPi)
  let t1 := fadd t0 (f32 Config.half)
  resF32 (fold (wrap t1))

/-- `SINP` (rule R100). -/
def execSinp (a b : Word) (s : State) : Host.Outcome State Fault Refusal :=
  answer ⟨0, a, b⟩ (.ok (sinpWord a)) s

/-- `COSP` (rule R101). -/
def execCosp (a b : Word) (s : State) : Host.Outcome State Fault Refusal :=
  answer ⟨1, a, b⟩ (.ok (cospWord a)) s

end Sys2Proof.Machine
end

