-- ==== Sys2Proof/Machine/Dispatch.lean ====
section
/-! DEFINITION. What each operation does when the block accepts a request for it: one arm for each row of the opcode
table. -/

namespace Sys2Proof.Machine

def exec (i : Instr) (s : State) : Host.Outcome State Fault Refusal :=
  match i with
  -- folded-parabola sine and cosine
  | .sinp a b => Sys2Proof.Machine.execSinp a b s
  | .cosp a b => Sys2Proof.Machine.execCosp a b s
  -- table sine and cosine
  | .sinlut a b => Sys2Proof.Machine.execSinlut a b s
  | .coslut a b => Sys2Proof.Machine.execCoslut a b s
  -- arctangent
  | .atan a b => Sys2Proof.Machine.execAtan a b s
  | .atan2 a b => Sys2Proof.Machine.execAtan2 a b s
  | .atan2v2 a b => Sys2Proof.Machine.execAtan2v2 a b s
  -- inverse square root
  | .isqrt a b => Sys2Proof.Machine.execIsqrt a b s
  | .invsqrt a b => Sys2Proof.Machine.execInvsqrt a b s
  | .invsqrtv2 a b => Sys2Proof.Machine.execInvsqrtv2 a b s
  -- multiply
  | .mul a b => Sys2Proof.Machine.execMul a b s

end Sys2Proof.Machine
end

