-- ==== Sys2Proof/Machine/Edge.lean ====
section
/-! DEFINITION. One rising edge of `clk`: the handshakes, the reset and the offering of responses (rules R35 to R38,
R250, R251, R257). -/

namespace Sys2Proof.Machine

/-- What the implementation decides about one edge: the two bounds of rule R6, which oldest requests it answers early
(rule R258), and the word on `rsp_r` while nothing is offered (rule R250). No part of State: it is fixed for the block
and the edge's number. -/
structure Timing where
  capacity : Nat
  latency : Nat
  offerEarly : Request → Bool
  idleWord : Word

/-- The timing of edge number `n` of this block: open parameters and free values (log entries 6 and 9). -/
def timing (n : Nat) : Timing :=
  ⟨Config.maxInflight, Config.latency, fun r => Config.offerEarly n r.op r.a r.b, Config.idleWord n⟩

/-! ## The host's side -/

/-- The input ports when the schedule says nothing more: the host keeps offering the request it holds, if any, and
is ready to take a response (rule R38; log entry 7). -/
def idlePins (pending : Option Request) : Pins :=
  match pending with
  | some r => ⟨false, true, r, true⟩
  | none => ⟨false, false, ⟨0, 0, 0⟩, true⟩

/-- The input ports at the coming edge. -/
def nextPins (s : State) : Pins :=
  match s.schedule with
  | p :: _ => p
  | [] => idlePins s.pending

/-- The host keeps a request it has offered until it is accepted (rule R38). -/
def keepsHold (pending : Option Request) (p : Pins) : Bool :=
  match pending with
  | some r => p.reqValid && decide (p.req = r)
  | none => true

/-! ## The block's outputs -/

/-- Whether `inflight` has room: fewer than `MAX_INFLIGHT` ≥ 1 entries, so an empty list always has (rules R37,
R250). -/
def hasRoom (capacity : Nat) (s : State) : Bool :=
  s.inflight.isEmpty || decide (s.inflight.length < capacity)

/-- `req_ready` (rule R37). -/
def reqReady (capacity : Nat) (p : Pins) (s : State) : Bool :=
  !p.rst && hasRoom capacity s

/-! ## The parts of an edge -/

/-- The edge uses up one entry of the schedule and one draw. -/
def advance (s : State) : State :=
  { s with schedule := s.schedule.tail, draws := s.draws + 1 }

/-- An edge with `rst` = 1: nothing stays in flight or offered, and nothing is accepted or taken; the ROM and
`faulted` are unchanged (rules R250, R254). -/
def resetEdge (idle : Word) (p : Pins) (s : State) : State :=
  { s with
    inflight := []
    rspValid := false
    rspR := idle
    age := 0
    taken := []
    pending := if p.reqValid then some p.req else none }

/-- A response offered and wanted is taken: the oldest entry leaves `inflight` (rule R35). -/
def takeResponse (p : Pins) (s : State) : State :=
  if s.rspValid && p.rspReady then
    match s.inflight with
    | t :: ts =>
      { s with inflight := ts, rspValid := false, age := 0, taken := s.taken ++ [⟨t.req, s.rspR⟩] }
    | [] => { s with rspValid := false, age := 0 }
  else s

/-- Accepting a request runs the operation it names; a reserved code is accepted and answered like any other
(rules R35, R84, R86). -/
def acceptRequest (r : Request) (s : State) : Host.Outcome State Fault Refusal :=
  match decode r with
  | .ok i => exec i s
  | .error (.reservedOp op) =>
    .next (raiseViolation (.reservedOp op) r (Config.reservedOpResult r.op r.a r.b) s)

/-- Whether a response is offered after the edge: one offered and not taken stays, and otherwise the oldest
transaction is offered, early as its own request allows or when the latency bound forces it (rules R36, R38, R258). -/
def offersNow (τ : Timing) (s : State) : Bool :=
  s.rspValid ||
    match s.inflight with
    | [] => false
    | t :: _ => τ.offerEarly t.req || decide (τ.latency ≤ s.age + 1)

/-- The word on `rsp_r` after the edge: kept while offered, the oldest transaction's word when newly offered
(rule R36), and any word otherwise (rule R250). -/
def nextRspR (τ : Timing) (s : State) : Word :=
  if s.rspValid then s.rspR
  else
    match s.inflight with
    | [] => τ.idleWord
    | t :: _ => if offersNow τ s then t.rsp else τ.idleWord

/-- The response outputs after the edge; the oldest transaction, if not offered, has waited one edge more. -/
def offerResponse (τ : Timing) (s : State) : State :=
  { s with
    rspValid := offersNow τ s
    rspR := nextRspR τ s
    age := if offersNow τ s || s.inflight.isEmpty then s.age else s.age + 1 }

/-- The state in which an edge accepts a request: the response of this edge already taken, the hold released. -/
def beforeAccept (p : Pins) (s : State) : State :=
  { takeResponse p (advance s) with pending := none }

/-- The state of an edge that accepts nothing, before its outputs: a request offered is held (rule R257). -/
def withoutAccept (p : Pins) (s : State) : State :=
  { takeResponse p (advance s) with pending := if p.reqValid then some p.req else none }

/-- The outputs follow the acceptance, if that answered. -/
def thenOffer (τ : Timing) (o : Host.Outcome State Fault Refusal) : Host.Outcome State Fault Refusal :=
  match o with
  | .next s => .next (offerResponse τ s)
  | .fault f => .fault f
  | .refused r => .refused r

/-- One rising edge of `clk` with the input ports `p` (rules R35, R250, R257). -/
def edge (τ : Timing) (p : Pins) (s : State) : Host.Outcome State Fault Refusal :=
  if keepsHold s.pending p then
    if p.rst then .next (resetEdge τ.idleWord p (advance s))
    else if p.reqValid && reqReady τ.capacity p s then
      thenOffer τ (acceptRequest p.req (beforeAccept p s))
    else .next (offerResponse τ (withoutAccept p s))
  else .refused .hostBrokeHold

end Sys2Proof.Machine
end

