-- ==== Sys2Proof/Machine/Step.lean ====
section
/-! DEFINITION. One step of the machine is one rising edge of `clk` (rule R35). -/

namespace Sys2Proof.Machine

/-- The next rising edge, with the input ports the host drives at it and this block's own timing. -/
def step (s : State) : Host.Outcome State Fault Refusal :=
  edge (timing s.draws) (nextPins s) s

/-- `s` with the request of a table word offered at the next edge (no reset, no response taken there). The request
port is where the block receives its operations (rule R32). A held request is dropped and a full `inflight` emptied,
so that the very next step accepts exactly this request (log entry 10). -/
def State.withFetchWord (s : State) (nbits w : Nat) : State :=
  { s with
    schedule := ⟨false, true, requestOfTableWord nbits w, false⟩ :: s.schedule
    pending := none
    inflight := if hasRoom Config.maxInflight s then s.inflight else []
    rspValid := if hasRoom Config.maxInflight s then s.rspValid else false }

end Sys2Proof.Machine
end

