-- ==== Sys2Proof/Machine/Response.lean ====
section
/-! DEFINITION. `Op(op, a, b)` of rule R39 as one function of the ROM and the request, and the requests that violate a
precondition (rule R231): what invariants and whole-machine statements speak of. -/

namespace Sys2Proof.Machine

/-- The violated condition of an operation's operands, if any (rule R231). -/
def violationOfInstr : Instr → Option Condition
  | .atan2 a b => if atan2IsZero (opS32 a) (opS32 b) then some .atan2Zero else none
  | .atan2v2 a b => if atan2IsZero (opS32 a) (opS32 b) then some .atan2Zero else none
  | .isqrt a _ => if isqrtInDomain (opF32 a) then none else some .isqrtDomain
  | .invsqrt a _ => if isqrtInDomain (opF32 a) then none else some .isqrtDomain
  | .invsqrtv2 a _ => if isqrtInDomain (opF32 a) then none else some .isqrtDomain
  | .sinp _ _ => none
  | .cosp _ _ => none
  | .sinlut _ _ => none
  | .coslut _ _ => none
  | .atan _ _ => none
  | .mul _ _ => none

/-- The condition of rule R231 that a request meets, if any; the operation code is checked first (rule R233). -/
def violationOf (r : Request) : Option Condition :=
  match decode r with
  | .ok i => violationOfInstr i
  | .error (.reservedOp op) => some (.reservedOp op)

/-- `Op` for an operation (rule R39). -/
def responseOf (rom : Memory) : Instr → Except Fault Word
  | .sinp a _ => .ok (sinpWord a)
  | .cosp a _ => .ok (cospWord a)
  | .sinlut a _ => sinlutWord rom a
  | .coslut a _ => coslutWord rom a
  | .atan a _ => .ok (atanWord a)
  | .atan2 a b => if atan2IsZero (opS32 a) (opS32 b) then .ok (Config.atan2ZeroResult 5) else a2Word ratV1 a b
  | .atan2v2 a b => if atan2IsZero (opS32 a) (opS32 b) then .ok (Config.atan2ZeroResult 6) else a2Word ratV2 a b
  | .isqrt a _ => .ok (if isqrtInDomain (opF32 a) then isqrtWord a else Config.isqrtDomainResult 7 a)
  | .invsqrt a _ => .ok (if isqrtInDomain (opF32 a) then invsqrtWord a else Config.isqrtDomainResult 8 a)
  | .invsqrtv2 a _ => .ok (if isqrtInDomain (opF32 a) then invsqrtv2Word a else Config.isqrtDomainResult 9 a)
  | .mul a b => .ok (mulWord a b)

/-- `Op(op, a, b)`: the response word to a request (rules R39, R84). -/
def response (rom : Memory) (r : Request) : Except Fault Word :=
  match decode r with
  | .ok i => responseOf rom i
  | .error _ => .ok (Config.reservedOpResult r.op r.a r.b)

end Sys2Proof.Machine
end

