-- ==== Sys2Proof/Safety.lean ====
section
/-! DEFINITION. What counts as a good state and a good run (rules R36 to R39, R42, R65, R121, R232). -/

namespace Sys2Proof.Machine

/-- The invariant of the block at every point between two edges. -/
structure Inv (s : State) : Prop where
  /-- The ROM meets rule R121. -/
  romWf : Memory.wf s.rom = true
  /-- `inflight` holds at most `MAX_INFLIGHT` entries (rule R30). -/
  room : s.inflight.length ≤ Config.maxInflight
  /-- A response is offered only for the oldest entry, with that entry's word (rule R36). -/
  offered : s.rspValid = true → ∃ t ts, s.inflight = t :: ts ∧ s.rspR = t.rsp
  /-- Every accepted request will be answered with its own response word (rule R39). -/
  answered : ∀ t ∈ s.inflight, response s.rom t.req = .ok t.rsp
  /-- Every response taken was the response word of its own request (rules R39, R65). -/
  delivered : ∀ t ∈ s.taken, response s.rom t.req = .ok t.rsp
  /-- The oldest transaction waits less than `LATENCY` edges (rule R38; the counting is log entry 6). -/
  waits : s.age < Config.latency
  /-- With nothing in flight, no edge has been waited (log entry 6). -/
  idle : s.inflight = [] → s.age = 0
  /-- `faulted` is set exactly when a violation was raised (rules R42, R232; log entry 3). -/
  recorded : s.faulted = !s.violations.isEmpty
  /-- Every violation raised names a condition its request meets (rules R231, R232). -/
  genuine : ∀ v ∈ s.violations, violationOf v.req = some v.cond
  /-- A request whose response is unspecified never stands in flight or answered without `faulted` (rule R232). -/
  unspecified : ∀ t ∈ s.taken ++ s.inflight, (violationOf t.req).isSome = true → s.faulted = true

/-- The end of a successful run: every response taken and no precondition violation (rule R232). -/
def SuccessfulEnd (s : State) : Prop :=
  s.inflight = [] ∧ s.rspValid = false ∧ s.faulted = false

/-- A step that stays safe: it answers a next state that is not faulted (rule R232). -/
def SafeStep (s t : State) : Prop :=
  step s = .next t ∧ t.faulted = false

/-- The request accepted at the next edge, if any (rule R35). -/
def acceptedAt (s : State) : List Request :=
  if (nextPins s).reqValid && reqReady Config.maxInflight (nextPins s) s then [(nextPins s).req] else []

/-- The requests accepted during the next `n` edges, in order (rule R65). -/
def acceptedDuring : Nat → State → List Request
  | 0, _ => []
  | n + 1, s =>
    acceptedAt s ++
      match step s with
      | .next t => acceptedDuring n t
      | .fault _ => []
      | .refused _ => []

/-- A magnitude, in units of 2^-149, that some binary32 datum has (rule R10). -/
def Representable (k : Nat) : Prop := ∃ (w : Word) (neg : Bool), f32 w = .fin neg k

/-- `neg` and `m` are the correctly rounded `n / d` units: no representable magnitude is nearer, and of two equally
near ones the one with the even encoding is chosen (rule R11). -/
def NearestEven (n d m : Nat) : Prop :=
  Representable m ∧
    ∀ k, Representable k →
      ((m * d : Int) - n).natAbs ≤ ((k * d : Int) - n).natAbs ∧
        (((m * d : Int) - n).natAbs = ((k * d : Int) - n).natAbs → k ≠ m → magBits m % 2 = 0)

/-- The finite datum that `w` encodes is strictly nearer to `x` than every other finite datum (rule R17). Values are
magnitudes in units of 2^-149 with their sign. -/
def NearestTo (x : ℝ) (w : Word) : Prop :=
  ∃ (s : Bool) (m : Nat), f32 w = .fin s m ∧
    ∀ (v : Word) (t : Bool) (k : Nat), f32 v = .fin t k → f32 v ≠ f32 w →
      |(if s then -(m : ℝ) else m) / 2 ^ 149 - x| < |(if t then -(k : ℝ) else k) / 2 ^ 149 - x|

end Sys2Proof.Machine
end

