-- ==== Sys2Proof/Certificates/Slice0/Obligations.lean ====
section
/-! DEFINITION. The statements about the fast-math core, each a formal reading of rules of the spec. -/

open Sys2Proof Sys2Proof.Machine

/-! ## Encoding -/

/-- Decoding the packed word of any well-formed operation gives it back with every operand bit. The packing into 68
bits is the model's choice (log entry 1). -/
def Obligations.PackedWordDecodesToItsInstruction : Prop :=
  ∀ i : Instr, i.wf = true → decodeTableWord 68 (packRequest (encode i)).toNat = some i

/-- A packed word that decodes is the packed word of what it decodes to, so no two words name one operation with the
same operands (the packing is log entry 1). -/
def Obligations.PackedWordIsEncodingOfItsInstruction : Prop :=
  ∀ (w : BitVec 68) (i : Instr), decodeTableWord 68 w.toNat = some i → packRequest (encode i) = w

/-- Rule R82: the code of each operation, and each code selects exactly one operation. -/
def Obligations.OpCodesSelectOneOperation : Prop :=
  (∀ a b : Word,
    decode ⟨0, a, b⟩ = .ok (.sinp a b) ∧ decode ⟨1, a, b⟩ = .ok (.cosp a b) ∧
    decode ⟨2, a, b⟩ = .ok (.sinlut a b) ∧ decode ⟨3, a, b⟩ = .ok (.coslut a b) ∧
    decode ⟨4, a, b⟩ = .ok (.atan a b) ∧ decode ⟨5, a, b⟩ = .ok (.atan2 a b) ∧
    decode ⟨6, a, b⟩ = .ok (.atan2v2 a b) ∧ decode ⟨7, a, b⟩ = .ok (.isqrt a b) ∧
    decode ⟨8, a, b⟩ = .ok (.invsqrt a b) ∧ decode ⟨9, a, b⟩ = .ok (.invsqrtv2 a b) ∧
    decode ⟨10, a, b⟩ = .ok (.mul a b)) ∧
  (∀ r : Request, (∃ i, decode r = .ok i) ↔ r.op.toNat ≤ 10) ∧
  (∀ (r : Request) (i : Instr), decode r = .ok i ↔ encode i = r)

/-- Rule R81: two requests with the same code name the same operation (or both none), whatever their operands. -/
def Obligations.OpAloneSelectsTheOperation : Prop :=
  ∀ (r r' : Request), r.op = r'.op →
    (∀ i, decode r = .ok i → ∃ i', decode r' = .ok i' ∧ (encode i').op = (encode i).op ∧ i'.ctorIdx = i.ctorIdx) ∧
    (∀ e, decode r = .error e → decode r' = .error e)

/-- Words written out from rule R82's codes decode to the operations they stand for. Where the operand words stand in the
packed word is the model's choice (log entry 1, DESIGN CHOICE). -/
def Obligations.SampleWordsDecode : Prop :=
  decodeTableWord 8 0b0000 = some (.sinp 0 0) ∧
  decodeTableWord 8 0b0011 = some (.coslut 0 0) ∧
  decodeTableWord 36 (0x3F800000 * 2 ^ 4 + 0b0100) = some (.atan 0x3F800000#32 0) ∧
  decodeTableWord 68 (4 * 2 ^ 36 + 3 * 2 ^ 4 + 0b0101) = some (.atan2 3#32 4#32) ∧
  decodeTableWord 36 (0x40000000 * 2 ^ 4 + 0b1001) = some (.invsqrtv2 0x40000000#32 0) ∧
  decodeTableWord 68 (7 * 2 ^ 36 + 0xFFFFFED4 * 2 ^ 4 + 0b1010) = some (.mul 0xFFFFFED4#32 7#32) ∧
  decodeTableWord 8 0b1011 = none ∧ decodeTableWord 8 0b1111 = none

/-! ## The clock edge -/

/-- An edge with `rst` = 0 at which a request for an operation is offered and accepted runs that operation, in the
state where this edge's response is already taken, and then sets the response outputs. -/
def Obligations.StepRunsTheDecodedInstruction : Prop :=
  ∀ (s : State) (i : Instr), keepsHold s.pending (nextPins s) = true → (nextPins s).reqValid = true →
    reqReady Config.maxInflight (nextPins s) s = true → decode (nextPins s).req = .ok i →
    step s =
      match exec i { takeResponse (nextPins s)
                      { s with schedule := s.schedule.tail, draws := s.draws + 1 } with pending := none } with
      | .next t => .next (offerResponse (timing s.draws) t)
      | .fault f => .fault f
      | .refused r => .refused r

/-- A word placed by `withFetchWord` is accepted by the very next step, which runs its operation (the placing is log
entry 10). -/
def Obligations.PlacedWordRunsNext : Prop :=
  ∀ (s : State) (nbits w : Nat) (i : Instr), decodeTableWord nbits w = some i →
    ∃ s' : State, s'.rom = s.rom ∧ s'.faulted = s.faulted ∧ s'.taken = s.taken ∧
      step (s.withFetchWord nbits w) = thenOffer (timing s.draws) (exec i s')

/-- A request with a reserved code is accepted like any other, answered with the open word, and recorded as a
violation (rules R84 and R232). That the step goes on and the record in the model's own field `violations` are log
entry 3 (DEDUCED); that the open word is an opaque function of the request is log entry 12 (DEDUCED). -/
def Obligations.ReservedCodeIsAcceptedAndAnswered : Prop :=
  ∀ (s : State), keepsHold s.pending (nextPins s) = true → (nextPins s).reqValid = true →
    reqReady Config.maxInflight (nextPins s) s = true → 11 ≤ (nextPins s).req.op.toNat →
    (∀ i, decode (nextPins s).req ≠ .ok i) ∧
    ∃ t, step s = .next t ∧
      t.inflight = (takeResponse (nextPins s) s).inflight ++
        [⟨(nextPins s).req,
          Config.reservedOpResult (nextPins s).req.op (nextPins s).req.a (nextPins s).req.b⟩] ∧
      t.faulted = true ∧
      t.violations = s.violations ++ [⟨.reservedOp (nextPins s).req.op, (nextPins s).req⟩] ∧
      t.rom = s.rom ∧ t.taken = (takeResponse (nextPins s) s).taken ∧ t.pending = none

/-- What an edge with `rst` = 1 leaves, and that nothing is offered until a request is accepted (rule R250). That a
reset edge takes no response is said by the model's own record `taken`, which it empties (log entry 15, DESIGN CHOICE);
that it keeps the model's own field `violations` is log entry 14 (DESIGN CHOICE). The reset edge at which the host
breaks its hold (log entry 8) is the subject of `StepStopsOnlyWhenTheHostBreaksItsHold`. -/
def Obligations.ResetEdgeEmptiesTheBlock : Prop :=
  (∀ (s : State), keepsHold s.pending (nextPins s) = true → (nextPins s).rst = true →
    ∃ t, step s = .next t ∧ t.inflight = [] ∧ t.rspValid = false ∧ t.rom = s.rom ∧ t.faulted = s.faulted ∧
      t.violations = s.violations ∧ t.taken = [] ∧
      (∀ p : Pins, p.rst = true → reqReady Config.maxInflight p t = false) ∧
      (∀ p : Pins, p.rst = false → reqReady Config.maxInflight p t = true)) ∧
  (∀ (s t : State), step s = .next t → s.inflight = [] → s.rspValid = false →
    (nextPins s).reqValid = false → t.inflight = [] ∧ t.rspValid = false)

/-- One reset edge is a complete reset, and a request offered at the first edge after it is accepted (rule R251). A
second reset edge changes none of the model's own fields `age`, `violations` and `taken` either: log entries 6
(DEDUCED), 14 and 15 (DESIGN CHOICE). That a violating request too is accepted and the machine goes on is log entry 3
(DEDUCED). -/
def Obligations.OneResetEdgeIsComplete : Prop :=
  (∀ (s t u : State), (nextPins s).rst = true → step s = .next t → (nextPins t).rst = true → step t = .next u →
    u.inflight = t.inflight ∧ u.rspValid = t.rspValid ∧ u.rom = t.rom ∧ u.faulted = t.faulted ∧
      u.violations = t.violations ∧ u.taken = t.taken ∧ u.age = t.age) ∧
  (∀ (s t : State), Memory.wf s.rom = true → (nextPins s).rst = true → step s = .next t →
    keepsHold t.pending (nextPins t) = true → (nextPins t).rst = false → (nextPins t).reqValid = true →
    ∃ u w, step t = .next u ∧ u.inflight = [⟨(nextPins t).req, w⟩])

/-- Rule R36: a response is offered only when something is in flight, it is the oldest entry's response word, and it
stays until it is taken or `rst` is asserted. -/
def Obligations.OfferedResponseIsTheOldestAndStays : Prop :=
  (∀ s : State, Inv s → s.rspValid = true →
    ∃ t ts, s.inflight = t :: ts ∧ response s.rom t.req = .ok s.rspR) ∧
  (∀ s t : State, step s = .next t → s.rspValid = true → (nextPins s).rst = false →
    (nextPins s).rspReady = false → t.rspValid = true ∧ t.rspR = s.rspR)

/-- `req_ready`, and that only a full list or reset keeps a request out, never its code or operands (rule R37). That a
request which violates a precondition answers a next state too is log entry 3 (DEDUCED), and its word as an opaque
function of the request is log entry 12 (DEDUCED). -/
def Obligations.OnlyResetOrAFullListKeepsARequestOut : Prop :=
  (∀ (p : Pins) (s : State),
    reqReady Config.maxInflight p s = true ↔ p.rst = false ∧ s.inflight.length < Config.maxInflight) ∧
  (∀ s : State, Memory.wf s.rom = true → keepsHold s.pending (nextPins s) = true → (nextPins s).reqValid = true →
    (nextPins s).rst = false → s.inflight.length < Config.maxInflight →
    ∃ t w, step s = .next t ∧ response s.rom (nextPins s).req = .ok w ∧
      t.inflight = (takeResponse (nextPins s) s).inflight ++ [⟨(nextPins s).req, w⟩]) ∧
  (∀ s t : State, step s = .next t → (nextPins s).rst = false →
    ¬ ((nextPins s).reqValid = true ∧ s.inflight.length < Config.maxInflight) →
    t.inflight = (takeResponse (nextPins s) s).inflight)

/-- The latency bound of rule R38 at one edge without reset: the oldest transaction, not yet offered, is offered or
waits one edge more within the bound. The counting of the edges by the model's own field `age` is log entry 6
(DEDUCED). -/
def Obligations.OldestIsOfferedOrWaitsOneEdge : Prop :=
  ∀ s t : State, Inv s → step s = .next t → (nextPins s).rst = false → s.rspValid = false →
    ∀ x xs, s.inflight = x :: xs → (∃ ys, t.inflight = x :: ys) ∧
      ((t.rspValid = true ∧ t.rspR = x.rsp) ∨
       (t.rspValid = false ∧ t.age = s.age + 1 ∧ t.age < Config.latency))

/-- The latency bound of rule R38 over a run: a run without reset that is long enough offers the oldest transaction's
response at some edge. The counting of the edges by the model's own field `age` is log entry 6 (DEDUCED). -/
def Obligations.OldestIsOfferedWithinLatency : Prop :=
  ∀ (n : Nat) (s t : State), Inv s → core.run n s = .next t → (∀ p ∈ s.schedule, p.rst = false) →
    s.inflight ≠ [] → s.rspValid = false → Config.latency ≤ s.age + n →
    ∃ (k : Nat) (u : State), 1 ≤ k ∧ k ≤ n ∧ core.run k s = .next u ∧ u.rspValid = true ∧
      u.inflight.head? = s.inflight.head?

/-- Rules R65 and R257 at one edge without reset: what was answered and what is in flight stay in acceptance order; at
most one request joins at the end, with its own response word, and at most one leaves at the front. What was answered
is the model's own record `taken` (log entry 15, DESIGN CHOICE); that a violating request joins like any other, with an
opaque word, is log entries 3 and 12 (DEDUCED). -/
def Obligations.ResponsesLeaveInAcceptanceOrder : Prop :=
  ∀ s t : State, Inv s → step s = .next t → (nextPins s).rst = false →
    (∃ new, t.taken ++ t.inflight = s.taken ++ s.inflight ++ new ∧ new.length ≤ 1 ∧
      (∀ x ∈ new, x.req = (nextPins s).req ∧ (nextPins s).reqValid = true ∧
        response s.rom x.req = .ok x.rsp)) ∧
    (∃ gone, t.taken = s.taken ++ gone ∧ gone.length ≤ 1 ∧
      (gone ≠ [] ↔ s.rspValid = true ∧ (nextPins s).rspReady = true))

/-- The order of rule R65 over a run without reset: the answered and the waiting requests together are exactly those accepted, in
the order of acceptance, and each response taken is the response word of its own request. From a state with nothing
taken and nothing in flight, the n-th response taken is the response of the n-th request accepted. What was answered
is the model's own record `taken` (log entry 15, DESIGN CHOICE); that a violating request is answered like any other,
with an opaque word, is log entries 3 and 12 (DEDUCED). -/
def Obligations.HistoryIsTheSequenceOfAcceptedRequests : Prop :=
  ∀ (n : Nat) (s t : State), Inv s → core.run n s = .next t → (∀ p ∈ s.schedule, p.rst = false) →
    (t.taken ++ t.inflight).map (·.req) = (s.taken ++ s.inflight).map (·.req) ++ acceptedDuring n s ∧
      s.taken <+: t.taken ∧ (∀ x ∈ t.taken, response s.rom x.req = .ok x.rsp)

/-- The bit `faulted` of rule R42: set exactly when a violating request is accepted, and never cleared, not even by
reset. That the machine goes on after a violation is log entry 3 (DEDUCED). -/
def Obligations.FaultedIsSetByViolationsAndNeverCleared : Prop :=
  ∀ s t : State, step s = .next t →
    t.faulted = (s.faulted ||
      ((nextPins s).reqValid && reqReady Config.maxInflight (nextPins s) s &&
        (violationOf (nextPins s).req).isSome))

/-- With a ROM that meets rule R121 a step stops only where the host breaks its duty of rule R38, for which the spec
gives no meaning; everywhere else it answers a next state, whatever the request, a violating one included (log entry 3,
DEDUCED). The last clause says which request the host must hold: the one offered at an edge that did not accept it, and
none otherwise (rule R257). The refusal and the model's own field `pending` are log entry 8 (DEDUCED); that a reset edge
too leaves the host holding the request it offers is log entry 8's DESIGN CHOICE. -/
def Obligations.StepStopsOnlyWhenTheHostBreaksItsHold : Prop :=
  (∀ s : State, Memory.wf s.rom = true →
    (∀ r, s.pending = some r → (nextPins s).reqValid = true ∧ (nextPins s).req = r) → ∃ t, step s = .next t) ∧
  (∀ (s : State) (r : Request), s.pending = some r → ¬ ((nextPins s).reqValid = true ∧ (nextPins s).req = r) →
    step s = .refused .hostBrokeHold) ∧
  (∀ s t : State, step s = .next t →
    t.pending =
      if (nextPins s).reqValid = true ∧ reqReady Config.maxInflight (nextPins s) s = false then some (nextPins s).req
      else none)

/-- Every step keeps the block's invariant: the ROM form of rule R121, the bound of R37, the offered word of R36, the
response words of R39, the latency bound of R38, and the records of violations. The counting of the latency by the
model's own field `age` is log entry 6 (DEDUCED); the fields `violations` and `taken` are log entries 3 (DEDUCED) and 15
(DESIGN CHOICE). -/
def Obligations.StepKeepsTheInvariant : Prop :=
  ∀ s t : State, Inv s → step s = .next t → Inv t

/-- The reset state satisfies the block's invariant. Its clauses on `faulted` and on the model's own fields `violations`,
`taken` and `age` hold by their values in the reset state, log entry 14 (DESIGN CHOICE). -/
def Obligations.ResetStateSatisfiesTheInvariant : Prop := Inv State.reset

/-- No step changes the ROM (rules R30, R41, R70). -/
def Obligations.NoStepChangesTheRom : Prop :=
  ∀ s t : State, step s = .next t → t.rom = s.rom ∧ ∀ i, romRead t.rom i = romRead s.rom i

/-- Without `rst` no accepted transaction is lost, and one discarded by reset leaves no effect (rule R254): nothing in
flight, nothing offered, and, in the model's own record `taken`, nothing taken (log entry 15, DESIGN CHOICE). -/
def Obligations.OnlyResetAbandonsATransaction : Prop :=
  (∀ s t : State, Inv s → step s = .next t → (nextPins s).rst = false →
    ∀ x ∈ s.inflight, x ∈ t.inflight ∨ x ∈ t.taken) ∧
  (∀ s t : State, step s = .next t → (nextPins s).rst = true →
    t.inflight = [] ∧ t.rspValid = false ∧ t.taken = [] ∧ t.rom = s.rom ∧ t.faulted = s.faulted)

/-! ## Every operation -/

/-- Every operation completes on every operand, and every request, reserved codes included, is accepted with exactly one
response word (rule R230); only a precondition violation is recorded beside it (rules R231, R232). That the machine goes
on after a violation and the record in the model's own field `violations` are log entry 3 (DEDUCED); the unspecified
words are opaque functions of the request by log entry 12 (DEDUCED). -/
def Obligations.EveryRequestIsAnswered : Prop :=
  (∀ (i : Instr) (s : State), Memory.wf s.rom = true →
    ∃ w, responseOf s.rom i = .ok w ∧
      exec i s = .next { s with
        inflight := s.inflight ++ [⟨encode i, w⟩]
        faulted := s.faulted || (violationOfInstr i).isSome
        violations := s.violations ++ (violationOfInstr i).toList.map (fun c => ⟨c, encode i⟩) }) ∧
  (∀ (r : Request) (s : State), Memory.wf s.rom = true →
    ∃ w, response s.rom r = .ok w ∧
      acceptRequest r s = .next { s with
        inflight := s.inflight ++ [⟨r, w⟩]
        faulted := s.faulted || (violationOf r).isSome
        violations := s.violations ++ (violationOf r).toList.map (fun c => ⟨c, r⟩) })

/-- The frame of all eleven operations: beside the accepted transaction at the end of `inflight` and the record of a
violation, nothing changes; the ROM reads as before. The record in the model's own field `violations` is log entry 3
(DEDUCED). -/
def Obligations.OperationsChangeNothingElse : Prop :=
  ∀ (i : Instr) (s t : State), exec i s = .next t →
    t.rom = s.rom ∧ (∀ k, romRead t.rom k = romRead s.rom k) ∧
    t.rspValid = s.rspValid ∧ t.rspR = s.rspR ∧ t.age = s.age ∧ t.pending = s.pending ∧
    t.taken = s.taken ∧ t.schedule = s.schedule ∧ t.draws = s.draws ∧
    (∃ w, t.inflight = s.inflight ++ [⟨encode i, w⟩]) ∧
    (violationOfInstr i = none → t.faulted = s.faulted ∧ t.violations = s.violations)

/-- A response depends on the operation's own request and the ROM alone, not on anything else in the state (rule R39).
That this holds of the unspecified words too is log entry 12 (DEDUCED). -/
def Obligations.ResponseDependsOnlyOnItsRequest : Prop :=
  ∀ (i : Instr) (s s' t : State), s.rom = s'.rom → exec i s = .next t →
    ∃ (x : Transaction) (t' : State), exec i s' = .next t' ∧
      t.inflight = s.inflight ++ [x] ∧ t'.inflight = s'.inflight ++ [x]

/-- Ignored words and ignored upper halves never change a response (rule R83). That this holds of the unspecified word of
the inverse square roots too is log entry 12 (DEDUCED). -/
def Obligations.IgnoredBitsDoNotMatter : Prop :=
  ∀ (rom : Memory) (a a' b b' : Word),
    responseOf rom (.sinp a b) = responseOf rom (.sinp a b') ∧
    responseOf rom (.cosp a b) = responseOf rom (.cosp a b') ∧
    responseOf rom (.atan a b) = responseOf rom (.atan a b') ∧
    responseOf rom (.isqrt a b) = responseOf rom (.isqrt a b') ∧
    responseOf rom (.invsqrt a b) = responseOf rom (.invsqrt a b') ∧
    responseOf rom (.invsqrtv2 a b) = responseOf rom (.invsqrtv2 a b') ∧
    (a.toNat % 2 ^ 16 = a'.toNat % 2 ^ 16 →
      responseOf rom (.sinlut a b) = responseOf rom (.sinlut a' b') ∧
      responseOf rom (.coslut a b) = responseOf rom (.coslut a' b') ∧
      (b.toNat % 2 ^ 16 = b'.toNat % 2 ^ 16 →
        responseOf rom (.mul a b) = responseOf rom (.mul a' b')))

/-! ## The results, operation by operation -/

/-- Rules R100 and R102: SINP, with the constants of rule R17. -/
def Obligations.SinpResult : Prop :=
  ∀ (a b : Word) (s : State),
    let t := fmul (f32 a) (f32 0x3EA2F983#32)
    let p := fmul t (fabs t)
    let y := fsub t p
    let q := fmul (f32 0x40666666#32) (fabs y)
    let u := fadd (f32 0x40466666#32) q
    exec (.sinp a b) s = .next { s with inflight := s.inflight ++ [⟨⟨0, a, b⟩, bits (fmul y u)⟩] }

/-- Rules R101, R102 and R103: COSP, with the constants of rule R17. -/
def Obligations.CospResult : Prop :=
  ∀ (a b : Word) (s : State),
    let t1 := fadd (fmul (f32 a) (f32 0x3EA2F983#32)) (f32 0x3F000000#32)
    let z := fadd t1 (f32 0x4BC00000#32)
    let w := fsub z (f32 0x4BC00000#32)
    let t := fsub t1 w
    let p := fmul t (fabs t)
    let y := fsub t p
    let q := fmul (f32 0x40666666#32) (fabs y)
    let u := fadd (f32 0x40466666#32) q
    exec (.cosp a b) s = .next { s with inflight := s.inflight ++ [⟨⟨1, a, b⟩, bits (fmul y u)⟩] }

/-- SINP, COSP and ATAN answer an infinite or NaN argument with `NAN_RESULT` (rules R100, R101, R150). -/
def Obligations.NonFiniteArgumentGivesNan : Prop :=
  ∀ (a b : Word) (s : State), a.toNat / 2 ^ 23 % 256 = 255 →
    exec (.sinp a b) s = .next { s with inflight := s.inflight ++ [⟨⟨0, a, b⟩, Config.nanResult⟩] } ∧
    exec (.cosp a b) s = .next { s with inflight := s.inflight ++ [⟨⟨1, a, b⟩, Config.nanResult⟩] } ∧
    exec (.atan a b) s = .next { s with inflight := s.inflight ++ [⟨⟨4, a, b⟩, Config.nanResult⟩] }

/-- WRAP confines every finite argument of magnitude at most 2^23 to [-1, 1] (the spec's inference in section 1 of
40_trig_poly.md: "`WRAP(t)` = t − 2k exactly, which lies in [−1, 1]"). Magnitudes are in units of 2^-149. -/
def Obligations.WrapConfinesToOnePeriod : Prop :=
  ∀ (w : Word) (neg : Bool) (m : Nat), f32 w = .fin neg m → m ≤ 2 ^ 23 * 2 ^ 149 →
    ∃ (neg' : Bool) (m' : Nat) (k : Int), wrap (.fin neg m) = .fin neg' m' ∧ m' ≤ 2 ^ 149 ∧
      (if neg' then -(m' : Int) else m') = (if neg then -(m : Int) else m) - 2 * k * 2 ^ 149

/-- Rules R122 and R125: SINLUT over any table that meets rule R121. -/
def Obligations.SinlutResult : Prop :=
  ∀ (a b : Word) (s : State), Memory.wf s.rom = true →
    ∀ (angle : Int), angle = (BitVec.ofNat 16 a.toNat).toInt →
    ∀ (u v : Nat) (n : Int), u = angle.natAbs % 3600 →
      ((u ≤ 900 ∧ n = 1 ∧ v = u) ∨ (900 < u ∧ u ≤ 1800 ∧ n = 1 ∧ v = 1800 - u) ∨
       (1800 < u ∧ u ≤ 2700 ∧ n = -1 ∧ v = u - 1800) ∨ (2700 < u ∧ n = -1 ∧ v = 3600 - u)) →
      exec (.sinlut a b) s = .next { s with inflight := s.inflight ++ [⟨⟨2, a, b⟩,
        bits (if v < 105 then fmul (i2f ((if angle < 0 then -1 else 1) * n * v)) (f32 0x3AE4C388#32)
              else fdiv (i2f ((if angle < 0 then -1 else 1) * n * (s.rom.getD (v / 10) 0).toNat))
                (f32 0x447A0000#32))⟩] }

/-- Rule R126: COSLUT is SINLUT of the shifted angle wrapped to 16 bits, as a transaction of its own. -/
def Obligations.CoslutResult : Prop :=
  ∀ (a b a' b' : Word) (s : State), Memory.wf s.rom = true →
    (a'.toNat % 2 ^ 16 : Int) = (900 - (a.toNat : Int)) % 2 ^ 16 →
    ∃ w, exec (.coslut a b) s = .next { s with inflight := s.inflight ++ [⟨⟨3, a, b⟩, w⟩] } ∧
      exec (.sinlut a' b') s = .next { s with inflight := s.inflight ++ [⟨⟨2, a', b'⟩, w⟩] }

/-- SINLUT and COSLUT read the ROM only at the indexes 10 to 90 (the spec's inference in section 4 of
41_trig_lut.md: "it reads `ROM[i]` only for 10 ≤ i ≤ 90"). -/
def Obligations.LutReadsOnlyEntries10To90 : Prop :=
  ∀ (rom rom' : Memory) (a b : Word), (∀ i, 10 ≤ i → i ≤ 90 → rom[i]? = rom'[i]?) →
    responseOf rom (.sinlut a b) = responseOf rom' (.sinlut a b) ∧
    responseOf rom (.coslut a b) = responseOf rom' (.coslut a b)

/-- A table sine is finite, never -0 and at most 1.0 in magnitude, over any table that meets rule R121 (the spec's
inference in section 4 of 41_trig_lut.md: "never NaN, never −0, and has magnitude at most 1.0"). -/
def Obligations.LutResultIsAtMostOne : Prop :=
  ∀ (rom : Memory) (angle : Int), Memory.wf rom = true →
    ∃ (neg : Bool) (m : Nat), slut rom angle = .ok (.fin neg m) ∧ m ≤ 2 ^ 149 ∧ (m = 0 → neg = false)

/-- Rule R150: ATAN, with the constants of rule R17. The sign bit is joined on the encoding. -/
def Obligations.AtanResult : Prop :=
  ∀ (a b : Word) (s : State),
    let bx := fabs (fmul (f32 0x3F18A255#32) (f32 a))
    let num := fadd bx (fmul (f32 a) (f32 a))
    let q := fdiv num (fadd (fadd (f32 0x3F800000#32) bx) num)
    let qs := f32 (bits q ||| (a &&& 0x80000000#32))
    exec (.atan a b) s =
      .next { s with inflight := s.inflight ++ [⟨⟨4, a, b⟩, bits (fmul qs (f32 0x3FC90FF9#32))⟩] }

/-- ATAN is odd bit for bit below 2^64 and gives NaN from 2^64 on (the spec's inferences in section 1 of
42_arctan.md: "ATAN(−x) = −ATAN(x) bit for bit for every finite x with |x| < 2^64"). -/
def Obligations.AtanIsOddBelowTwoTo64 : Prop :=
  ∀ (a : Word),
    ((a.toNat % 2 ^ 31 < 0x5F800000) →
      atanWord (a ^^^ 0x80000000#32) = atanWord a ^^^ 0x80000000#32 ∧
      (atanWord a &&& 0x80000000#32) = (a &&& 0x80000000#32)) ∧
    ((0x5F800000 ≤ a.toNat % 2 ^ 31) → atanWord a = Config.nanResult)

/-- Rules R153, R154 and R155: ATAN2, with the constants of rule R17; at y = x = 0 the request is accepted as a
violation, and the machine goes on (log entry 3, DEDUCED). -/
def Obligations.Atan2Result : Prop :=
  (∀ s : State, ∃ t, exec (.atan2 0 0) s = .next t ∧ t.faulted = true) ∧
  ∀ (a b : Word) (s : State), ¬ (a = 0 ∧ b = 0) →
    let y := a.toInt
    let x := b.toInt
    let z := if |y| < |x| then fdiv (i2f y) (i2f x) else fdiv (i2f x) (i2f y)
    ∃ q : Int,
      ftrunc (fdiv (fmul (f32 0x44FFCDC3#32) z) (fadd (f32 0x406491D1#32) (fmul z z))) = some q ∧
      exec (.atan2 a b) s = .next { s with inflight := s.inflight ++ [⟨⟨5, a, b⟩, BitVec.ofInt 32
        (if |y| < |x| then (if x < 0 then (if y < 0 then q - 1800 else q + 1800) else q)
         else (if y < 0 then 900 - q - 1800 else 900 - q))⟩] }

/-- Rules R153, R154 and R156: ATAN2V2, with the constants of rule R17; at y = x = 0 the request is accepted as
a violation, and the machine goes on (log entry 3, DEDUCED). -/
def Obligations.Atan2v2Result : Prop :=
  (∀ s : State, ∃ t, exec (.atan2v2 0 0) s = .next t ∧ t.faulted = true) ∧
  ∀ (a b : Word) (s : State), ¬ (a = 0 ∧ b = 0) →
    let y := a.toInt
    let x := b.toInt
    let z := if |y| < |x| then fdiv (i2f y) (i2f x) else fdiv (i2f x) (i2f y)
    ∃ q : Int,
      ftrunc (fdiv (fmul (f32 0x440F4000#32) z)
        (fadd (f32 0x3F800000#32) (fmul (f32 0x3E8F5C29#32) (fmul z z)))) = some q ∧
      exec (.atan2v2 a b) s = .next { s with inflight := s.inflight ++ [⟨⟨6, a, b⟩, BitVec.ofInt 32
        (if |y| < |x| then (if x < 0 then (if y < 0 then q - 1800 else q + 1800) else q)
         else (if y < 0 then 900 - q - 1800 else 900 - q))⟩] }

/-- At y = x = 0 both angle encoders accept the request, answer it with the open word and record the violation (rules
R161 and R232). That the machine goes on and the record in the model's own field `violations` are log entry 3
(DEDUCED); that the open word is an opaque function of the code is log entry 12 (DEDUCED). -/
def Obligations.Atan2ZeroIsAViolation : Prop :=
  ∀ (s : State),
    exec (.atan2 0 0) s = .next { s with
      inflight := s.inflight ++ [⟨⟨5, 0, 0⟩, Config.atan2ZeroResult 5⟩]
      faulted := true
      violations := s.violations ++ [⟨.atan2Zero, ⟨5, 0, 0⟩⟩] } ∧
    exec (.atan2v2 0 0) s = .next { s with
      inflight := s.inflight ++ [⟨⟨6, 0, 0⟩, Config.atan2ZeroResult 6⟩]
      faulted := true
      violations := s.violations ++ [⟨.atan2Zero, ⟨6, 0, 0⟩⟩] }

/-- Both angle encoders answer an angle in [-1800, 1800] away from y = x = 0 (the spec's inference in section 2 of
42_arctan.md: "The final angle lies in [−1800, 1800]"). -/
def Obligations.AngleIsWithinHalfATurn : Prop :=
  ∀ (rom : Memory) (a b : Word), ¬ (a = 0 ∧ b = 0) →
    (∃ w, responseOf rom (.atan2 a b) = .ok w ∧ -1800 ≤ w.toInt ∧ w.toInt ≤ 1800) ∧
    (∃ w, responseOf rom (.atan2v2 a b) = .ok w ∧ -1800 ≤ w.toInt ∧ w.toInt ≤ 1800)

/-- The truncated rational value of both encoders is at most 447 in magnitude (the spec's inference in section 2 of
42_arctan.md: "So |a| ≤ 447 after truncation"). -/
def Obligations.RationalValueIsBelow448 : Prop :=
  ∀ (a b : Word), ¬ (a = 0 ∧ b = 0) →
    (∃ q : Int, ftrunc (ratV1 (a2Ratio a.toInt b.toInt)) = some q ∧ -447 ≤ q ∧ q ≤ 447) ∧
    (∃ q : Int, ftrunc (ratV2 (a2Ratio a.toInt b.toInt)) = some q ∧ -447 ≤ q ∧ q ≤ 447)

/-- The axes: 0 and 1800 on the x axis, 900 and -900 on the y axis, for both encoders and every length (rule R155's
axis cases for every magnitude). -/
def Obligations.AnglesOnTheAxes : Prop :=
  ∀ (rom : Memory) (v : Word),
    (0 < v.toInt →
      responseOf rom (.atan2 0 v) = .ok 0#32 ∧ responseOf rom (.atan2v2 0 v) = .ok 0#32 ∧
      responseOf rom (.atan2 v 0) = .ok 900#32 ∧ responseOf rom (.atan2v2 v 0) = .ok 900#32) ∧
    (v.toInt < 0 →
      responseOf rom (.atan2 0 v) = .ok 1800#32 ∧ responseOf rom (.atan2v2 0 v) = .ok 1800#32 ∧
      responseOf rom (.atan2 v 0) = .ok (BitVec.ofInt 32 (-900)) ∧
      responseOf rom (.atan2v2 v 0) = .ok (BitVec.ofInt 32 (-900)))

/-- Rules R190, R191, R192 and R195: ISQRT of every positive finite y, subnormals included; any other y
is accepted as a violation, and the machine goes on (log entry 3, DEDUCED). -/
def Obligations.IsqrtResult : Prop :=
  (∀ (a b : Word) (s : State), (a = 0 ∨ 0x7F800000 ≤ a.toNat) →
    ∃ t, exec (.isqrt a b) s = .next t ∧ t.faulted = true) ∧
  ∀ (a b : Word) (s : State), 0 < a.toNat → a.toNat < 0x7F800000 →
    let y := f32 a
    let r := f32 (BitVec.ofNat 32 (0x5F3759DF - a.toNat / 2))
    let t := fmul (fmul (fmul (f32 0x3F000000#32) y) r) r
    let u := fsub (f32 0x3FC00000#32) t
    exec (.isqrt a b) s = .next { s with inflight := s.inflight ++ [⟨⟨7, a, b⟩, bits (fmul r u)⟩] }

/-- Rules R190, R191, R192 and R196: INVSQRT of every positive finite y, subnormals included; any other y
is accepted as a violation, and the machine goes on (log entry 3, DEDUCED). -/
def Obligations.InvsqrtResult : Prop :=
  (∀ (a b : Word) (s : State), (a = 0 ∨ 0x7F800000 ≤ a.toNat) →
    ∃ t, exec (.invsqrt a b) s = .next t ∧ t.faulted = true) ∧
  ∀ (a b : Word) (s : State), 0 < a.toNat → a.toNat < 0x7F800000 →
    let y := f32 a
    let r := f32 (BitVec.ofNat 32 (0x5F3759DF - a.toNat / 2))
    let t := fmul (fmul y r) r
    let u := fsub (f32 0x40400000#32) t
    exec (.invsqrt a b) s = .next { s with inflight := s.inflight ++
      [⟨⟨8, a, b⟩, bits (fmul (fmul (f32 0x3F000000#32) r) u)⟩] }

/-- Rules R190, R191, R192 and R197: INVSQRTV2 of every positive finite y, subnormals included; any other y
is accepted as a violation, and the machine goes on (log entry 3, DEDUCED). -/
def Obligations.Invsqrtv2Result : Prop :=
  (∀ (a b : Word) (s : State), (a = 0 ∨ 0x7F800000 ≤ a.toNat) →
    ∃ t, exec (.invsqrtv2 a b) s = .next t ∧ t.faulted = true) ∧
  ∀ (a b : Word) (s : State), 0 < a.toNat → a.toNat < 0x7F800000 →
    let y := f32 a
    let r := f32 (BitVec.ofNat 32 (0x5F1FFFF9 - a.toNat / 2))
    let t := fmul (fmul y r) r
    let u := fsub (f32 0x4018E962#32) t
    exec (.invsqrtv2 a b) s = .next { s with inflight := s.inflight ++
      [⟨⟨9, a, b⟩, bits (fmul (fmul (f32 0x3F343637#32) r) u)⟩] }

/-- For y = ±0, y < 0, y infinite or NaN the three operations accept the request, answer it with an unspecified word and
record the violation (rules R198 and R232). That the machine goes on and the record in the model's own field
`violations` are log entry 3 (DEDUCED). -/
def Obligations.InverseRootDomainViolation : Prop :=
  ∀ (a b : Word) (s : State), (a = 0 ∨ 0x7F800000 ≤ a.toNat) →
    (∃ w, exec (.isqrt a b) s = .next { s with
      inflight := s.inflight ++ [⟨⟨7, a, b⟩, w⟩]
      faulted := true
      violations := s.violations ++ [⟨.isqrtDomain, ⟨7, a, b⟩⟩] }) ∧
    (∃ w, exec (.invsqrt a b) s = .next { s with
      inflight := s.inflight ++ [⟨⟨8, a, b⟩, w⟩]
      faulted := true
      violations := s.violations ++ [⟨.isqrtDomain, ⟨8, a, b⟩⟩] }) ∧
    (∃ w, exec (.invsqrtv2 a b) s = .next { s with
      inflight := s.inflight ++ [⟨⟨9, a, b⟩, w⟩]
      faulted := true
      violations := s.violations ++ [⟨.isqrtDomain, ⟨9, a, b⟩⟩] })

/-- The seed of a positive argument is a positive normal number with an encoding in [M - 0x3FFFFFFF, M] (the spec's
inference in section 2 of 43_invsqrt.md: "That range is positive normal for both constants"). -/
def Obligations.SeedIsPositiveNormal : Prop :=
  ∀ (w m : Word), w.toNat < 2 ^ 31 → m = 0x5F3759DF#32 ∨ m = 0x5F1FFFF9#32 →
    ∃ e : Word, seed w m = f32 e ∧ m.toNat - 0x3FFFFFFF ≤ e.toNat ∧ e.toNat ≤ m.toNat ∧
      ∃ k, seed w m = .fin false k ∧ 2 ^ 23 ≤ k

/-- ISQRT and INVSQRT agree bit for bit from 2^-125 on (the spec's inference in section 4 of 43_invsqrt.md: "So
FORM_A(y, r) = FORM_B(y, r) bit for bit, and ISQRT(y) = INVSQRT(y)"). -/
def Obligations.IsqrtAgreesWithInvsqrt : Prop :=
  ∀ (a : Word), 0x01000000 ≤ a.toNat → a.toNat < 0x7F800000 → isqrtWord a = invsqrtWord a

/-- Rule R220: MUL answers the exact product of the two signed 16-bit operands, read back as a signed word. -/
def Obligations.MulIsTheExactProduct : Prop :=
  ∀ (a b : Word) (s : State),
    ∃ w : Word,
      w.toInt = (BitVec.ofNat 16 a.toNat).toInt * (BitVec.ofNat 16 b.toNat).toInt ∧
      exec (.mul a b) s = .next { s with inflight := s.inflight ++ [⟨⟨10, a, b⟩, w⟩] } ∧
      responseOf s.rom (.mul b a) = .ok w

/-! ## Floating-point primitives -/

/-- An encoding reads back as itself, NaNs, infinities, subnormals and signed zeros included (rules R10, R18). -/
def Obligations.EncodingReadsBack : Prop :=
  ∀ w : Word, bits (f32 w) = w

/-- The single rounding of rule R11 (with the subnormals of rule R13): the magnitude chosen for n/d units is the
nearest representable one, ties to the even encoding; and the value overflows exactly from halfway between the
largest finite magnitude and the next power of two on. -/
def Obligations.RoundingIsNearestTiesToEven : Prop :=
  ∀ n d : Nat, 0 < d →
    (∀ m, roundMag n d = some m → NearestEven n d m) ∧
    (roundMag n d = none ↔ (2 ^ 25 - 1) * 2 ^ 252 * d ≤ n)

/-- The four operations on finite operands: the exact signed result rounded once (rule R11), an infinity of the
result's sign where the rounding overflows (rule R12), and the sign of a zero sum (rule R12: +0 for operands of
opposite sign, their sign otherwise). Sums and differences are integers in units of 2^-149, products and quotients are
fractions of them (log entry 17). -/
def Obligations.ArithmeticRoundsTheExactResult : Prop :=
  ∀ (s t : Bool) (m k : Nat),
    let x : Int := if s then -(m : Int) else m
    let y : Int := if t then -(k : Int) else k
    fadd (.fin s m) (.fin t k) =
      (if x + y = 0 then .fin (s && t) 0
       else match roundMag (x + y).natAbs 1 with
         | some r => .fin (decide (x + y < 0)) r
         | none => .inf (decide (x + y < 0))) ∧
    fsub (.fin s m) (.fin t k) =
      (if x - y = 0 then .fin (s && !t) 0
       else match roundMag (x - y).natAbs 1 with
         | some r => .fin (decide (x - y < 0)) r
         | none => .inf (decide (x - y < 0))) ∧
    fmul (.fin s m) (.fin t k) =
      (match roundMag (m * k) (2 ^ 149) with
       | some r => .fin (s ^^ t) r
       | none => .inf (s ^^ t)) ∧
    (k ≠ 0 → fdiv (.fin s m) (.fin t k) =
      (match roundMag (m * 2 ^ 149) k with
       | some r => .fin (s ^^ t) r
       | none => .inf (s ^^ t)))

/-- The special cases of rule R12 that are not the rounding itself. -/
def Obligations.SpecialCasesFollowIeee : Prop :=
  (∀ (w : Word) (f : F32), fadd (.nan w) f = nanF ∧ fadd f (.nan w) = nanF ∧ fsub (.nan w) f = nanF ∧
    fsub f (.nan w) = nanF ∧ fmul (.nan w) f = nanF ∧ fmul f (.nan w) = nanF ∧ fdiv (.nan w) f = nanF ∧
    fdiv f (.nan w) = nanF) ∧
  (∀ s t : Bool, fsub (.inf s) (.inf s) = nanF ∧ fmul (.fin s 0) (.inf t) = nanF ∧ fmul (.inf t) (.fin s 0) = nanF ∧
    fdiv (.fin s 0) (.fin t 0) = nanF ∧ fdiv (.inf s) (.inf t) = nanF) ∧
  (∀ (s t : Bool) (m : Nat), 0 < m → fdiv (.fin s m) (.fin t 0) = .inf (s ^^ t)) ∧
  (∀ (s t : Bool) (m : Nat), fdiv (.fin s m) (.inf t) = .fin (s ^^ t) 0) ∧
  (∀ (s t : Bool) (m k : Nat), (∃ r, fmul (.fin s m) (.fin t k) = .fin (s ^^ t) r) ∨
    fmul (.fin s m) (.fin t k) = .inf (s ^^ t)) ∧
  (∀ (s t : Bool) (m k : Nat), k ≠ 0 → (∃ r, fdiv (.fin s m) (.fin t k) = .fin (s ^^ t) r) ∨
    fdiv (.fin s m) (.fin t k) = .inf (s ^^ t)) ∧
  (∀ (s : Bool) (m : Nat), fadd (.fin s m) (.fin (!s) m) = .fin false 0 ∧
    fsub (.fin s m) (.fin s m) = .fin false 0) ∧
  fadd (.fin true 0) (.fin true 0) = .fin true 0

/-- Rule R14: whenever an operation yields a NaN it is the datum of `NAN_RESULT`, and that is a NaN encoding. -/
def Obligations.NanResultsAreOneEncoding : Prop :=
  f32 Config.nanResult = .nan Config.nanResult ∧
  ∀ (p q : F32) (w : Word), fadd p q = .nan w ∨ fsub p q = .nan w ∨ fmul p q = .nan w ∨ fdiv p q = .nan w →
    w = Config.nanResult

/-- Rule R15: `fabs` clears the sign bit of the encoding of any datum. -/
def Obligations.FabsClearsTheSignBit : Prop :=
  ∀ w : Word, fabs (f32 w) = f32 (w &&& 0x7FFFFFFF#32)

/-- Rule R16: integers up to 2^24 convert exactly, larger ones to the nearest datum; truncation drops the fraction. -/
def Obligations.ConversionsFollowTheirRule : Prop :=
  (∀ n : Int, n.natAbs ≤ 2 ^ 24 → i2f n = .fin (decide (n < 0)) (n.natAbs * 2 ^ 149)) ∧
  (∀ n : Int, n.natAbs ≤ 2 ^ 31 → ∃ m, i2f n = .fin (decide (n < 0)) m ∧ NearestEven (n.natAbs * 2 ^ 149) 1 m) ∧
  (∀ (neg : Bool) (mag : Nat), ∃ q : Nat, q * 2 ^ 149 ≤ mag ∧ mag < (q + 1) * 2 ^ 149 ∧
    ftrunc (.fin neg mag) = some (if neg then -(q : Int) else q))

/-- The constants of rule R17: each is strictly nearer to its literal than every other finite datum, and so is `INV_PI`
to 1/π and `PI_1800` to π/1800. -/
def Obligations.ConstantsAreTheNearestData : Prop :=
  NearestTo (1 / Real.pi) Config.invPi ∧ NearestTo 0.5 Config.half ∧ NearestTo 25165824 Config.c24 ∧
  NearestTo 3.1 Config.k3_1 ∧ NearestTo 3.6 Config.k3_6 ∧ NearestTo (Real.pi / 1800) Config.pi1800 ∧
  NearestTo 1000 Config.k1000 ∧ NearestTo 0.596227 Config.kAtan ∧ NearestTo 1 Config.one ∧
  NearestTo 1.5708 Config.kPi2 ∧ NearestTo 2046.43 Config.kA2n ∧ NearestTo 3.5714 Config.kA2d ∧
  NearestTo 573 Config.k573 ∧ NearestTo 0.28 Config.k028 ∧ NearestTo 1.5 Config.k1_5 ∧ NearestTo 0.5 Config.k0_5 ∧
  NearestTo 3 Config.k3 ∧ NearestTo 0.703952253 Config.kV2a ∧ NearestTo 2.38924456 Config.kV2b
end

