-- ==== Sys2Proof/Laws/Ops.lean ====
section
/-! SUPPORT. What the shared operations answer, once for all callers. -/

namespace Sys2Proof.Machine

@[simp] theorem answer_ok (r : Request) (w : Word) (s : State) : answer r (.ok w) s = .next (accept r w s) := rfl

@[simp] theorem answer_error (r : Request) (f : Fault) (s : State) : answer r (.error f) s = .fault f := rfl

/-- `answer` gives a next state exactly when the computation gave a word, and then it accepts the request with it. -/
theorem answer_next_iff {r : Request} {res : Except Fault Word} {s t : State} :
    answer r res s = .next t ↔ ∃ w, res = .ok w ∧ t = accept r w s := by
  cases res <;> simp [eq_comm]

/-- Accepting with the record of a violation, when there is one: the state every operation leaves. -/
def acceptWith (c : Option Condition) (r : Request) (w : Word) (s : State) : State :=
  { s with
    inflight := s.inflight ++ [⟨r, w⟩]
    faulted := s.faulted || c.isSome
    violations := s.violations ++ c.toList.map (fun x => ⟨x, r⟩) }

section
variable (c : Option Condition) (r : Request) (w : Word) (s : State)

@[simp] theorem acceptWith_rom : (acceptWith c r w s).rom = s.rom := rfl
@[simp] theorem acceptWith_rspValid : (acceptWith c r w s).rspValid = s.rspValid := rfl
@[simp] theorem acceptWith_rspR : (acceptWith c r w s).rspR = s.rspR := rfl
@[simp] theorem acceptWith_age : (acceptWith c r w s).age = s.age := rfl
@[simp] theorem acceptWith_pending : (acceptWith c r w s).pending = s.pending := rfl
@[simp] theorem acceptWith_taken : (acceptWith c r w s).taken = s.taken := rfl
@[simp] theorem acceptWith_schedule : (acceptWith c r w s).schedule = s.schedule := rfl
@[simp] theorem acceptWith_draws : (acceptWith c r w s).draws = s.draws := rfl
@[simp] theorem acceptWith_inflight : (acceptWith c r w s).inflight = s.inflight ++ [⟨r, w⟩] := rfl
@[simp] theorem acceptWith_faulted : (acceptWith c r w s).faulted = (s.faulted || c.isSome) := rfl

end

@[simp] theorem acceptWith_none (r : Request) (w : Word) (s : State) : acceptWith none r w s = accept r w s := by
  simp [acceptWith, accept]

@[simp] theorem acceptWith_some (c : Condition) (r : Request) (w : Word) (s : State) :
    acceptWith (some c) r w s = raiseViolation c r w s := by
  simp [acceptWith, raiseViolation, accept]

end Sys2Proof.Machine
end

