-- ==== Sys2Proof/Laws/Exec.lean ====
section
/-! SUPPORT. The one inversion of `exec`: every operation accepts its own request with its own response word
(rule R39) and records its violation, or stops where that word could not be computed. -/

namespace Sys2Proof.Machine

/-- All that executing an operation can do. -/
theorem exec_eq (i : Instr) (s : State) :
    exec i s =
      match responseOf s.rom i with
      | .ok w => .next (acceptWith (violationOfInstr i) (encode i) w s)
      | .error f => .fault f := by
  cases i with
  | sinp a b => simp [exec, execSinp, responseOf, violationOfInstr, encode]
  | cosp a b => simp [exec, execCosp, responseOf, violationOfInstr, encode]
  | sinlut a b =>
    cases h : sinlutWord s.rom a <;> simp [exec, execSinlut, responseOf, violationOfInstr, encode, h]
  | coslut a b =>
    cases h : coslutWord s.rom a <;> simp [exec, execCoslut, responseOf, violationOfInstr, encode, h]
  | atan a b => simp [exec, execAtan, responseOf, violationOfInstr, encode]
  | atan2 a b =>
    by_cases hz : atan2IsZero (opS32 a) (opS32 b) = true
    · simp [exec, execAtan2, responseOf, violationOfInstr, encode, hz]
    · cases h : a2Word ratV1 a b <;> simp [exec, execAtan2, responseOf, violationOfInstr, encode, hz, h]
  | atan2v2 a b =>
    by_cases hz : atan2IsZero (opS32 a) (opS32 b) = true
    · simp [exec, execAtan2v2, responseOf, violationOfInstr, encode, hz]
    · cases h : a2Word ratV2 a b <;> simp [exec, execAtan2v2, responseOf, violationOfInstr, encode, hz, h]
  | isqrt a b =>
    by_cases hd : isqrtInDomain (opF32 a) = true <;> simp [exec, execIsqrt, responseOf, violationOfInstr, encode, hd]
  | invsqrt a b =>
    by_cases hd : isqrtInDomain (opF32 a) = true <;>
      simp [exec, execInvsqrt, responseOf, violationOfInstr, encode, hd]
  | invsqrtv2 a b =>
    by_cases hd : isqrtInDomain (opF32 a) = true <;>
      simp [exec, execInvsqrtv2, responseOf, violationOfInstr, encode, hd]
  | mul a b => simp [exec, execMul, responseOf, violationOfInstr, encode]

/-- A next state of `exec` is the acceptance of the operation's own response. -/
theorem exec_next_iff {i : Instr} {s t : State} :
    exec i s = .next t ↔
      ∃ w, responseOf s.rom i = .ok w ∧ t = acceptWith (violationOfInstr i) (encode i) w s := by
  rw [exec_eq]
  cases responseOf s.rom i <;> simp [eq_comm]

/-- No operation writes the ROM, so each keeps its form (rules R62, R121). -/
theorem exec_keeps_rom_wf {i : Instr} {s t : State} (h : exec i s = .next t) (hm : Memory.wf s.rom = true) :
    Memory.wf t.rom = true := by
  obtain ⟨w, -, rfl⟩ := exec_next_iff.1 h
  exact hm

/-- `exec` refuses nothing. -/
theorem exec_ne_refused (i : Instr) (s : State) (r : Refusal) : exec i s ≠ .refused r := by
  rw [exec_eq]
  cases responseOf s.rom i <;> simp

end Sys2Proof.Machine
end

