-- ==== Sys2Proof/Laws/Decode.lean ====
section
/-! SUPPORT. Decoding and the response of a whole request (rules R39, R82, R84). -/

namespace Sys2Proof.Machine

/-- A request that decodes is the request of what it decodes to. -/
theorem encode_of_decode {r : Request} {i : Instr} (h : decode r = .ok i) : encode i = r := by
  obtain ⟨op, a, b⟩ := r
  unfold decode at h
  dsimp only at h
  split at h <;> cases h <;> (rename_i ho; simp only [encode]; congr 1; exact BitVec.eq_of_toNat_eq (by simp [ho]))

end Sys2Proof.Machine
end

