-- ==== Sys2Proof/Laws/State.lean ====
section
/-! SUPPORT. What each shared update of State does to each field, so that no proof unfolds a record update. -/

namespace Sys2Proof.Machine

/-! ## accept -/

section
variable (r : Request) (w : Word) (s : State)
@[simp] theorem accept_rom : (accept r w s).rom = s.rom := rfl
@[simp] theorem accept_inflight : (accept r w s).inflight = s.inflight ++ [⟨r, w⟩] := rfl
@[simp] theorem accept_rspValid : (accept r w s).rspValid = s.rspValid := rfl
@[simp] theorem accept_rspR : (accept r w s).rspR = s.rspR := rfl
@[simp] theorem accept_faulted : (accept r w s).faulted = s.faulted := rfl
@[simp] theorem accept_violations : (accept r w s).violations = s.violations := rfl
@[simp] theorem accept_age : (accept r w s).age = s.age := rfl
@[simp] theorem accept_pending : (accept r w s).pending = s.pending := rfl
@[simp] theorem accept_taken : (accept r w s).taken = s.taken := rfl
@[simp] theorem accept_schedule : (accept r w s).schedule = s.schedule := rfl
@[simp] theorem accept_draws : (accept r w s).draws = s.draws := rfl
end

/-! ## raiseViolation -/

section
variable (c : Condition) (r : Request) (w : Word) (s : State)
@[simp] theorem raiseViolation_rom : (raiseViolation c r w s).rom = s.rom := rfl
@[simp] theorem raiseViolation_inflight : (raiseViolation c r w s).inflight = s.inflight ++ [⟨r, w⟩] := rfl
@[simp] theorem raiseViolation_rspValid : (raiseViolation c r w s).rspValid = s.rspValid := rfl
@[simp] theorem raiseViolation_rspR : (raiseViolation c r w s).rspR = s.rspR := rfl
@[simp] theorem raiseViolation_faulted : (raiseViolation c r w s).faulted = true := rfl
@[simp] theorem raiseViolation_violations :
    (raiseViolation c r w s).violations = s.violations ++ [⟨c, r⟩] := rfl
@[simp] theorem raiseViolation_age : (raiseViolation c r w s).age = s.age := rfl
@[simp] theorem raiseViolation_pending : (raiseViolation c r w s).pending = s.pending := rfl
@[simp] theorem raiseViolation_taken : (raiseViolation c r w s).taken = s.taken := rfl
@[simp] theorem raiseViolation_schedule : (raiseViolation c r w s).schedule = s.schedule := rfl
@[simp] theorem raiseViolation_draws : (raiseViolation c r w s).draws = s.draws := rfl
end

/-! ## advance -/

section
variable (s : State)
@[simp] theorem advance_rom : (advance s).rom = s.rom := rfl
@[simp] theorem advance_inflight : (advance s).inflight = s.inflight := rfl
@[simp] theorem advance_rspValid : (advance s).rspValid = s.rspValid := rfl
@[simp] theorem advance_rspR : (advance s).rspR = s.rspR := rfl
@[simp] theorem advance_faulted : (advance s).faulted = s.faulted := rfl
@[simp] theorem advance_violations : (advance s).violations = s.violations := rfl
@[simp] theorem advance_age : (advance s).age = s.age := rfl
@[simp] theorem advance_pending : (advance s).pending = s.pending := rfl
@[simp] theorem advance_taken : (advance s).taken = s.taken := rfl
@[simp] theorem advance_schedule : (advance s).schedule = s.schedule.tail := rfl
@[simp] theorem advance_draws : (advance s).draws = s.draws + 1 := rfl
end

/-! ## resetEdge -/

section
variable (idle : Word) (p : Pins) (s : State)
@[simp] theorem resetEdge_rom : (resetEdge idle p s).rom = s.rom := rfl
@[simp] theorem resetEdge_inflight : (resetEdge idle p s).inflight = [] := rfl
@[simp] theorem resetEdge_rspValid : (resetEdge idle p s).rspValid = false := rfl
@[simp] theorem resetEdge_rspR : (resetEdge idle p s).rspR = idle := rfl
@[simp] theorem resetEdge_faulted : (resetEdge idle p s).faulted = s.faulted := rfl
@[simp] theorem resetEdge_violations : (resetEdge idle p s).violations = s.violations := rfl
@[simp] theorem resetEdge_age : (resetEdge idle p s).age = 0 := rfl
@[simp] theorem resetEdge_pending :
    (resetEdge idle p s).pending = if p.reqValid then some p.req else none := rfl
@[simp] theorem resetEdge_taken : (resetEdge idle p s).taken = [] := rfl
@[simp] theorem resetEdge_schedule : (resetEdge idle p s).schedule = s.schedule := rfl
@[simp] theorem resetEdge_draws : (resetEdge idle p s).draws = s.draws := rfl
end

/-! ## takeResponse: the fields it leaves alone -/

section
variable (p : Pins) (s : State)

theorem takeResponse_of_not_taken (h : (s.rspValid && p.rspReady) = false) : takeResponse p s = s := by
  simp [takeResponse, h]

theorem takeResponse_of_taken (h : (s.rspValid && p.rspReady) = true) {t : Transaction} {ts : List Transaction}
    (hs : s.inflight = t :: ts) :
    takeResponse p s =
      { s with inflight := ts, rspValid := false, age := 0, taken := s.taken ++ [⟨t.req, s.rspR⟩] } := by
  simp [takeResponse, h, hs]

@[simp] theorem takeResponse_rom : (takeResponse p s).rom = s.rom := by
  unfold takeResponse; repeat (first | split | rfl)
@[simp] theorem takeResponse_rspR : (takeResponse p s).rspR = s.rspR := by
  unfold takeResponse; repeat (first | split | rfl)
@[simp] theorem takeResponse_faulted : (takeResponse p s).faulted = s.faulted := by
  unfold takeResponse; repeat (first | split | rfl)
@[simp] theorem takeResponse_violations : (takeResponse p s).violations = s.violations := by
  unfold takeResponse; repeat (first | split | rfl)
@[simp] theorem takeResponse_pending : (takeResponse p s).pending = s.pending := by
  unfold takeResponse; repeat (first | split | rfl)
@[simp] theorem takeResponse_schedule : (takeResponse p s).schedule = s.schedule := by
  unfold takeResponse; repeat (first | split | rfl)
@[simp] theorem takeResponse_draws : (takeResponse p s).draws = s.draws := by
  unfold takeResponse; repeat (first | split | rfl)

/-- The edge's bookkeeping does not matter to what is taken. -/
@[simp] theorem takeResponse_advance_inflight :
    (takeResponse p (advance s)).inflight = (takeResponse p s).inflight := by
  unfold takeResponse advance; dsimp only; split
  · split <;> simp_all
  · rfl
@[simp] theorem takeResponse_advance_taken : (takeResponse p (advance s)).taken = (takeResponse p s).taken := by
  unfold takeResponse advance; dsimp only; split
  · split <;> simp_all
  · rfl
@[simp] theorem takeResponse_advance_rspValid :
    (takeResponse p (advance s)).rspValid = (takeResponse p s).rspValid := by
  unfold takeResponse advance; dsimp only; split
  · split <;> simp_all
  · rfl
@[simp] theorem takeResponse_advance_age : (takeResponse p (advance s)).age = (takeResponse p s).age := by
  unfold takeResponse advance; dsimp only; split
  · split <;> simp_all
  · rfl
end

/-! ## offerResponse: the fields it leaves alone -/

section
variable (τ : Timing) (s : State)
@[simp] theorem offerResponse_rom : (offerResponse τ s).rom = s.rom := rfl
@[simp] theorem offerResponse_inflight : (offerResponse τ s).inflight = s.inflight := rfl
@[simp] theorem offerResponse_faulted : (offerResponse τ s).faulted = s.faulted := rfl
@[simp] theorem offerResponse_violations : (offerResponse τ s).violations = s.violations := rfl
@[simp] theorem offerResponse_pending : (offerResponse τ s).pending = s.pending := rfl
@[simp] theorem offerResponse_taken : (offerResponse τ s).taken = s.taken := rfl
@[simp] theorem offerResponse_schedule : (offerResponse τ s).schedule = s.schedule := rfl
@[simp] theorem offerResponse_draws : (offerResponse τ s).draws = s.draws := rfl
@[simp] theorem offerResponse_rspValid : (offerResponse τ s).rspValid = offersNow τ s := rfl
@[simp] theorem offerResponse_rspR : (offerResponse τ s).rspR = nextRspR τ s := rfl
end

end Sys2Proof.Machine
end

