-- ==== Sys2Proof/Laws/Edge.lean ====
section
/-! SUPPORT. All that one edge can do, said once. -/

namespace Sys2Proof.Machine

/-- Accepting any request, reserved codes included: all it can do. -/
theorem acceptRequest_next_iff {r : Request} {s t : State} :
    acceptRequest r s = .next t ↔
      (∃ i w, decode r = .ok i ∧ responseOf s.rom i = .ok w ∧
        t = acceptWith (violationOfInstr i) (encode i) w s) ∨
      (∃ op, decode r = .error (.reservedOp op) ∧
        t = raiseViolation (.reservedOp op) r (Config.reservedOpResult r.op r.a r.b) s) := by
  unfold acceptRequest
  split
  · next i h => simp [h, exec_next_iff]
  · next op h => simp [h, eq_comm]

/-- Whatever the request, accepting it appends it with its own response word and records its violation (rules R39,
R84, R232). -/
theorem acceptRequest_accepts {r : Request} {s t : State} (h : acceptRequest r s = .next t) :
    ∃ w, response s.rom r = .ok w ∧ t = acceptWith (violationOf r) r w s := by
  rw [acceptRequest_next_iff] at h
  rcases h with ⟨i, w, hd, hw, rfl⟩ | ⟨op, hd, rfl⟩
  · exact ⟨w, by simp [response, hd, hw], by simp [violationOf, hd, encode_of_decode hd]⟩
  · exact ⟨Config.reservedOpResult r.op r.a r.b, by simp [response, hd], by simp [violationOf, hd]⟩

theorem acceptRequest_ne_refused (r : Request) (s : State) (x : Refusal) : acceptRequest r s ≠ .refused x := by
  unfold acceptRequest
  split
  · exact exec_ne_refused _ _ _
  · simp

@[simp] theorem thenOffer_next_iff {τ : Timing} {o : Host.Outcome State Fault Refusal} {t : State} :
    thenOffer τ o = .next t ↔ ∃ u, o = .next u ∧ t = offerResponse τ u := by
  cases o <;> simp [thenOffer, eq_comm]

/-- An edge that answers a next state resets, accepts a request, or does neither. -/
theorem edge_next_iff {τ : Timing} {p : Pins} {s t : State} :
    edge τ p s = .next t ↔
      keepsHold s.pending p = true ∧
        ((p.rst = true ∧ t = resetEdge τ.idleWord p (advance s)) ∨
         (p.rst = false ∧ p.reqValid = true ∧ hasRoom τ.capacity s = true ∧
            ∃ u, acceptRequest p.req (beforeAccept p s) = .next u ∧ t = offerResponse τ u) ∨
         (p.rst = false ∧ (p.reqValid = false ∨ hasRoom τ.capacity s = false) ∧
            t = offerResponse τ (withoutAccept p s))) := by
  unfold edge
  by_cases hk : keepsHold s.pending p = true
  · by_cases hr : p.rst = true
    · simp only [hk, hr]
      simpa using eq_comm
    · by_cases hv : p.reqValid = true
      · by_cases hc : hasRoom τ.capacity s = true
        · simp [hk, hr, hv, hc, reqReady]
        · simp [hk, hr, hv, hc, reqReady]
          exact eq_comm
      · simp [hk, hr, hv]
        exact eq_comm
  · simp [hk]

/-- The list of accepted transactions has room exactly below `MAX_INFLIGHT` (rule R37). -/
theorem hasRoom_maxInflight_iff (s : State) :
    hasRoom Config.maxInflight s = true ↔ s.inflight.length < Config.maxInflight := by
  cases h : s.inflight <;> simp [hasRoom, h, Config.maxInflight]

/-- A response that stands stays as it is. -/
theorem offerResponse_of_offered (τ : Timing) {s : State} (h : s.rspValid = true) : offerResponse τ s = s := by
  cases s
  simp_all [offerResponse, offersNow, nextRspR]

/-- With nothing in flight nothing is offered. -/
theorem offerResponse_of_empty (τ : Timing) {s : State} (h : s.rspValid = false) (hi : s.inflight = []) :
    offerResponse τ s = { s with rspR := τ.idleWord } := by
  cases s
  simp_all [offerResponse, offersNow, nextRspR]

/-- The oldest transaction, not yet offered, is offered with its own word or waits one edge more within the latency
bound. -/
theorem offerResponse_of_waiting (τ : Timing) {s : State} (h : s.rspValid = false) {t : Transaction}
    {ts : List Transaction} (hi : s.inflight = t :: ts) :
    offerResponse τ s = { s with rspValid := true, rspR := t.rsp } ∨
      (s.age + 1 < τ.latency ∧ offerResponse τ s = { s with rspR := τ.idleWord, age := s.age + 1 }) := by
  cases ho : (τ.offerEarly t.req || decide (τ.latency ≤ s.age + 1))
  · right
    simp only [Bool.or_eq_false_iff, decide_eq_false_iff_not] at ho
    cases s
    simp_all [offerResponse, offersNow, nextRspR]
  · left
    cases s
    simp_all [offerResponse, offersNow, nextRspR]

end Sys2Proof.Machine
end

