-- ==== Sys2Proof/Laws/Float.lean ====
section
/-! SUPPORT. One lemma for each step of the rounding of rule R11: binades, division to even, and how the rounded
magnitude lies among the representable ones. -/

namespace Sys2Proof.Machine

/-! ## Binades -/

theorem lt_two_pow_binade (q : Nat) : q < 2 ^ (24 + binade q) := by
  unfold binade
  by_cases h : q = 0
  · simp [h]
  · exact Nat.lt_of_lt_of_le (Nat.lt_log2_self) (Nat.pow_le_pow_right (by norm_num) (by omega))

theorem two_pow_binade_le {q : Nat} (h : 0 < binade q) : 2 ^ (23 + binade q) ≤ q := by
  unfold binade at *
  have hq : q ≠ 0 := by rintro rfl; simp at h
  rw [show 23 + (Nat.log2 q - 23) = Nat.log2 q by omega]
  exact Nat.log2_self_le hq

theorem binade_eq_zero {q : Nat} (h : q < 2 ^ 24) : binade q = 0 := by
  by_contra hb
  have h1 := two_pow_binade_le (Nat.pos_of_ne_zero hb)
  have h2 : 2 ^ 24 ≤ 2 ^ (23 + binade q) := Nat.pow_le_pow_right (by norm_num) (by omega)
  omega

/-! ## Division to even -/

theorem divEven_le {n d k : Nat} (hd : 0 < d) (h : n ≤ k * d) : divEven n d ≤ k := by
  have hm := Nat.div_add_mod n d
  have hq : n / d ≤ k := Nat.div_le_of_le_mul (by rwa [Nat.mul_comm])
  unfold divEven
  dsimp only
  rcases Nat.lt_or_eq_of_le hq with hlt | heq
  · split
    · omega
    · split <;> omega
  · have hr : n % d = 0 := by
      rw [heq, Nat.mul_comm] at hm
      omega
    simp [hr, hd, heq]

theorem le_divEven {n d k : Nat} (hd : 0 < d) (h : k * d ≤ n) : k ≤ divEven n d := by
  have hq : k ≤ n / d := (Nat.le_div_iff_mul_le hd).2 h
  unfold divEven
  dsimp only
  split
  · exact hq
  · split <;> omega

/-- A whole quotient is not changed. -/
theorem divEven_mul {k d : Nat} (hd : 0 < d) : divEven (k * d) d = k :=
  Nat.le_antisymm (divEven_le hd le_rfl) (le_divEven hd le_rfl)

/-! ## Representable magnitudes -/

/-- The magnitudes of finite data by their significand and binade: subnormals and the first normal binade, or 24
significant bits at a higher one. -/
def IsMag (k : Nat) : Prop := ∃ m e, m < 2 ^ 24 ∧ e ≤ 253 ∧ (e = 0 ∨ 2 ^ 23 ≤ m) ∧ k = m * 2 ^ e

/-- Every finite datum that a word encodes has such a magnitude (rule R10). -/
theorem isMag_of_f32 {w : Word} {neg : Bool} {k : Nat} (h : f32 w = .fin neg k) : IsMag k := by
  unfold f32 at h
  dsimp only at h
  have hf : (w.extractLsb' 0 23).toNat < 2 ^ 23 := (w.extractLsb' 0 23).isLt
  have he : (w.extractLsb' 23 8).toNat < 2 ^ 8 := (w.extractLsb' 23 8).isLt
  split at h
  · split at h <;> cases h
  · split at h
    · cases h
      exact ⟨(w.extractLsb' 0 23).toNat, 0, by omega, by omega, .inl rfl, by rw [Nat.pow_zero, Nat.mul_one]⟩
    · cases h
      exact ⟨_, _, by omega, by omega, .inr (by omega), rfl⟩

/-- No representable magnitude lies in the gaps of its binade: at or above `2 ^ (23 + e)` each is a multiple of
`2 ^ e`. -/
theorem IsMag.multiple {k e : Nat} (hk : IsMag k) (h : e = 0 ∨ 2 ^ (23 + e) ≤ k) : ∃ j, k = j * 2 ^ e := by
  obtain ⟨m, f, hm, -, -, rfl⟩ := hk
  rcases h with rfl | h
  · exact ⟨m * 2 ^ f, by simp⟩
  · have hfe : e ≤ f := by
      by_contra hlt
      have h1 : m * 2 ^ f < 2 ^ 24 * 2 ^ f := Nat.mul_lt_mul_of_pos_right hm (by positivity)
      have h2 : 2 ^ 24 * 2 ^ f ≤ 2 ^ (23 + e) := by
        rw [← Nat.pow_add]
        exact Nat.pow_le_pow_right (by norm_num) (by omega)
      omega
    refine ⟨m * 2 ^ (f - e), ?_⟩
    rw [Nat.mul_assoc, ← Nat.pow_add, Nat.sub_add_cancel hfe]

/-- Above the least normal significand every other representable magnitude is at least a unit of the binade away. -/
theorem IsMag.gap {k j e : Nat} (hk : IsMag k) (hj : 2 ^ 23 < j) (hne : k ≠ j * 2 ^ e) :
    (2 ^ e : Int) ≤ |(k : Int) - j * 2 ^ e| := by
  have hp : (0 : Int) < 2 ^ e := by positivity
  rcases Nat.lt_or_ge k (2 ^ (23 + e)) with hlt | hge
  · have h1 : (k : Int) < 2 ^ 23 * 2 ^ e := by rw [← pow_add]; exact_mod_cast hlt
    have h2 : (2 ^ 23 + 1 : Int) * 2 ^ e ≤ j * 2 ^ e := mul_le_mul_of_nonneg_right (by exact_mod_cast hj) hp.le
    rw [abs_of_neg (by linarith)]
    linarith
  · obtain ⟨i, rfl⟩ := hk.multiple (.inr hge)
    have hij : (i : Int) - j ≠ 0 := fun h => hne (by rw [show i = j by omega])
    rw [show ((i * 2 ^ e : Nat) : Int) - j * 2 ^ e = ((i : Int) - j) * 2 ^ e by push_cast; ring, abs_mul,
      abs_of_pos hp]
    exact le_mul_of_one_le_left hp.le (Int.one_le_abs hij)

theorem two_pow_mul_le {a b c : Nat} (h : a + b ≤ c) : 2 ^ a * 2 ^ b ≤ 2 ^ c := by
  rw [← Nat.pow_add]
  exact Nat.pow_le_pow_right (by norm_num) h

theorem IsMag.lt {k : Nat} (hk : IsMag k) : k < 2 ^ 24 * 2 ^ 253 := by
  obtain ⟨m, e, hm, he, -, rfl⟩ := hk
  calc m * 2 ^ e < 2 ^ 24 * 2 ^ e := Nat.mul_lt_mul_of_pos_right hm (by positivity)
    _ ≤ 2 ^ 24 * 2 ^ 253 := Nat.mul_le_mul_left _ (Nat.pow_le_pow_right (by norm_num) he)

/-! ## The rounded magnitude -/

/-- What `roundMag` answers when it answers. -/
theorem roundMag_some {n d r : Nat} (h : roundMag n d = some r) :
    binade (n / d) ≤ 253 ∧ r = divEven n (d * 2 ^ binade (n / d)) * 2 ^ binade (n / d) := by
  unfold roundMag at h
  dsimp only at h
  split at h
  · cases h
  · split at h
    · cases h
    · cases h
      exact ⟨by omega, rfl⟩

/-- The candidate of `roundMag` does not pass a representable bound above the exact value. -/
theorem round_le_of_le {n d k : Nat} (hd : 0 < d) (hk : IsMag k) (h : n ≤ k * d) :
    divEven n (d * 2 ^ binade (n / d)) * 2 ^ binade (n / d) ≤ k := by
  have hq : n / d ≤ k := Nat.div_le_of_le_mul (by rwa [Nat.mul_comm])
  obtain ⟨j, hj⟩ := hk.multiple (e := binade (n / d)) (by
    rcases Nat.eq_zero_or_pos (binade (n / d)) with h0 | h0
    · exact .inl h0
    · exact .inr ((two_pow_binade_le h0).trans hq))
  rw [hj]
  refine Nat.mul_le_mul_right _ (divEven_le (by positivity) ?_)
  calc n ≤ k * d := h
    _ = j * (d * 2 ^ binade (n / d)) := by conv_lhs => rw [hj]
                                           ring

/-- Rounding stays at or below a representable bound, and does not overflow there. -/
theorem roundMag_of_le {n d k : Nat} (hd : 0 < d) (hk : IsMag k) (h : n ≤ k * d) :
    ∃ r, roundMag n d = some r ∧ r ≤ k := by
  have hle := round_le_of_le hd hk h
  have hq : n / d ≤ k := Nat.div_le_of_le_mul (by rwa [Nat.mul_comm])
  have hb : binade (n / d) ≤ 253 := by
    by_contra hb
    have h1 := two_pow_binade_le (q := n / d) (by omega)
    have h2 : 2 ^ 24 * 2 ^ 253 ≤ 2 ^ (23 + binade (n / d)) := two_pow_mul_le (by omega)
    exact Nat.not_lt.2 (h2.trans (h1.trans hq)) hk.lt
  refine ⟨_, ?_, hle⟩
  unfold roundMag
  dsimp only
  rw [if_neg (by omega), if_neg]
  rintro ⟨he, hm⟩
  rw [hm, he] at hle
  exact Nat.not_lt.2 hle hk.lt

/-- Rounding stays at or above a representable bound below the exact value. -/
theorem le_of_roundMag {n d k r : Nat} (hd : 0 < d) (hk : IsMag k) (h : k * d ≤ n) (hr : roundMag n d = some r) :
    k ≤ r := by
  obtain ⟨-, rfl⟩ := roundMag_some hr
  have hq : k ≤ n / d := (Nat.le_div_iff_mul_le hd).2 h
  set e := binade (n / d) with he
  by_cases hm : e = 0 ∨ 2 ^ (23 + e) ≤ k
  · obtain ⟨j, hj⟩ := hk.multiple hm
    rw [hj]
    refine Nat.mul_le_mul_right _ (le_divEven (by positivity) ?_)
    calc j * (d * 2 ^ e) = k * d := by rw [hj]; ring
      _ ≤ n := h
  · push Not at hm
    have h1 := two_pow_binade_le (q := n / d) (by omega)
    have h2 : 2 ^ 23 ≤ divEven n (d * 2 ^ e) := by
      refine le_divEven (by positivity) ?_
      have h3 : 2 ^ (23 + e) * d ≤ n := (Nat.le_div_iff_mul_le hd).1 h1
      calc 2 ^ 23 * (d * 2 ^ e) = 2 ^ (23 + e) * d := by rw [Nat.pow_add]; ring
        _ ≤ n := h3
    calc k ≤ 2 ^ (23 + e) := hm.2.le
      _ = 2 ^ 23 * 2 ^ e := Nat.pow_add ..
      _ ≤ _ := Nat.mul_le_mul_right _ h2

/-- A representable value is not changed. -/
theorem roundMag_exact {k d : Nat} (hd : 0 < d) (hk : IsMag k) : roundMag (k * d) d = some k := by
  obtain ⟨r, hr, hle⟩ := roundMag_of_le hd hk le_rfl
  rw [hr, Nat.le_antisymm hle (le_of_roundMag hd hk le_rfl hr)]

/-- A rounded result is finite or an infinity, of the sign given. -/
theorem roundF_cases (neg : Bool) (n d : Nat) :
    (∃ r, roundMag n d = some r ∧ roundF neg n d = .fin neg r) ∨ (roundMag n d = none ∧ roundF neg n d = .inf neg) := by
  unfold roundF
  cases roundMag n d <;> simp

/-- Zero is not changed by the rounding. -/
theorem roundMag_zero : roundMag 0 1 = some 0 := by
  have h := roundMag_exact (k := 0) (d := 1) Nat.one_pos
    ⟨0, 0, by norm_num, by norm_num, .inl rfl, (Nat.zero_mul _).symm⟩
  rwa [Nat.zero_mul] at h

/-! The operations on finite operands, each before its rounding. -/

theorem fadd_fin (s t : Bool) (m k : Nat) :
    fadd (.fin s m) (.fin t k) =
      if s = t then roundF s (m + k) 1
      else if m = k then .fin false 0
      else if k < m then roundF s (m - k) 1
      else roundF t (k - m) 1 := rfl

theorem fsub_fin (s t : Bool) (m k : Nat) : fsub (.fin s m) (.fin t k) = fadd (.fin s m) (.fin (!t) k) := rfl

theorem fmul_fin (s t : Bool) (m k : Nat) :
    fmul (.fin s m) (.fin t k) = roundF (s ^^ t) (m * k) unitsPerOne := rfl

theorem fdiv_fin (s t : Bool) (m : Nat) {k : Nat} (hk : k ≠ 0) :
    fdiv (.fin s m) (.fin t k) = roundF (s ^^ t) (m * unitsPerOne) k := by
  simp only [fdiv, hk, if_false]

/-- A rounded result is never a NaN. -/
theorem roundF_ne_nan (neg : Bool) (n d : Nat) (w : Word) : roundF neg n d ≠ .nan w := by
  rcases roundF_cases neg n d with ⟨r, -, h⟩ | ⟨-, h⟩ <;> simp [h]

/-- Integers of at most 24 bits convert exactly (rule R16). -/
theorem isMag_int {k : Nat} (h : k ≤ 2 ^ 24) : IsMag (k * unitsPerOne) := by
  unfold unitsPerOne
  rcases Nat.eq_zero_or_pos k with rfl | hk
  · exact ⟨0, 0, by norm_num, by norm_num, .inl rfl, by simp⟩
  · rcases Nat.lt_or_ge k (2 ^ 24) with hlt | hge
    · have h1 := Nat.log2_self_le (n := k) (by omega)
      have h2 := Nat.lt_log2_self (n := k)
      have h3 : Nat.log2 k < 24 := by
        by_contra hc
        have := Nat.pow_le_pow_right (n := 2) (by norm_num) (show 24 ≤ Nat.log2 k by omega)
        omega
      generalize Nat.log2 k = l at h1 h2 h3
      refine ⟨k * 2 ^ (23 - l), 126 + l, ?_, by omega, .inr ?_, ?_⟩
      · calc k * 2 ^ (23 - l) < 2 ^ (l + 1) * 2 ^ (23 - l) := Nat.mul_lt_mul_of_pos_right h2 (by positivity)
          _ = 2 ^ 24 := by rw [← Nat.pow_add, show l + 1 + (23 - l) = 24 by omega]
      · calc 2 ^ 23 = 2 ^ l * 2 ^ (23 - l) := by rw [← Nat.pow_add, show l + (23 - l) = 23 by omega]
          _ ≤ k * 2 ^ (23 - l) := Nat.mul_le_mul_right _ h1
      · rw [Nat.mul_assoc, ← Nat.pow_add, show 23 - l + (126 + l) = 149 by omega]
    · obtain rfl : k = 2 ^ 24 := Nat.le_antisymm h hge
      exact ⟨2 ^ 23, 150, by norm_num, by norm_num, .inr le_rfl, by norm_num⟩

/-! ## Fields of a packed word, and NaN -/

theorem fraction_of_append (b : BitVec 1) (e : BitVec 8) (f : BitVec 23) :
    (b ++ (e ++ f)).extractLsb' 0 23 = f := by
  apply BitVec.eq_of_getLsbD_eq
  intro i hi
  rw [BitVec.getLsbD_extractLsb', BitVec.getLsbD_append, BitVec.getLsbD_append]
  simp [hi]
  omega

theorem exponent_of_append (b : BitVec 1) (e : BitVec 8) (f : BitVec 23) :
    (b ++ (e ++ f)).extractLsb' 23 8 = e := by
  apply BitVec.eq_of_getLsbD_eq
  intro i hi
  rw [BitVec.getLsbD_extractLsb', BitVec.getLsbD_append, BitVec.getLsbD_append]
  simp [hi, show ¬ (23 + i < 23) by omega, show 23 + i < 31 by omega]

/-- A word with all exponent bits set and a fraction that is not 0 encodes a NaN (rule R10). -/
theorem f32_of_nan_fields (b : BitVec 1) (f : BitVec 23) (hf : f.toNat ≠ 0) :
    f32 (b ++ (0xFF#8 ++ f)) = .nan (b ++ (0xFF#8 ++ f)) := by
  unfold f32
  dsimp only
  rw [exponent_of_append, fraction_of_append, if_pos (by rfl), if_neg hf]

/-- `NAN_RESULT` encodes a NaN (rules R10, R14), so a later step sees it as one. -/
theorem f32_nanResult : f32 Config.nanResult = nanF := by
  unfold nanF Config.nanResult
  refine f32_of_nan_fields _ _ ?_
  split
  · decide
  · next h => exact fun h0 => h (BitVec.eq_of_toNat_eq h0)

end Sys2Proof.Machine
end

