-- ==== Sys2Proof/Laws/Memory.lean ====
section
/-! SUPPORT. The ROM's invariants (rule R121) and its one operation, the read (rule R61). No operation writes the ROM
(rule R62), so each keeps its form; see also Laws/Exec.lean. -/

namespace Sys2Proof.Machine

/-- The reset state's ROM has the form of rule R121. -/
theorem reset_rom_wf : Memory.wf State.reset.rom = true := by decide

theorem Memory.wf_length {m : Memory} (h : Memory.wf m = true) : m.length = 91 := by
  simp only [Memory.wf, Bool.and_eq_true, decide_eq_true_eq] at h
  exact h.1.1.1

theorem Memory.wf_step {m : Memory} (h : Memory.wf m = true) {i : Nat} (hi : i < 90) :
    (m.getD i 0).toNat ≤ (m.getD (i + 1) 0).toNat := by
  simp only [Memory.wf, Bool.and_eq_true, decide_eq_true_eq, List.all_eq_true, List.mem_range] at h
  exact h.1.1.2 i hi

theorem Memory.wf_last {m : Memory} (h : Memory.wf m = true) : m.getD 90 0 = 1000 := by
  simp only [Memory.wf, Bool.and_eq_true, decide_eq_true_eq] at h
  exact h.2

/-- Every entry is at most the last one, 1000. -/
theorem Memory.wf_entry_le {m : Memory} (h : Memory.wf m = true) {i : Nat} (hi : i ≤ 90) :
    (m.getD i 0).toNat ≤ 1000 := by
  have key : ∀ k, k ≤ 90 → (m.getD (90 - k) 0).toNat ≤ 1000 := by
    intro k
    induction k with
    | zero =>
      intro _
      rw [show 90 - 0 = 90 from rfl, Memory.wf_last h]
      decide
    | succ k ih =>
      intro hk
      have hs := Memory.wf_step h (i := 90 - (k + 1)) (by omega)
      rw [show 90 - (k + 1) + 1 = 90 - k by omega] at hs
      exact hs.trans (ih (by omega))
  simpa [show 90 - (90 - i) = i by omega] using key (90 - i) (by omega)

/-- A read inside the table of a well-formed ROM gives the entry. -/
theorem romRead_of_wf {m : Memory} (h : Memory.wf m = true) {i : Nat} (hi : i ≤ 90) :
    romRead m i = some (m.getD i 0).toNat := by
  have hl : i < m.length := by rw [Memory.wf_length h]; omega
  simp [romRead, hl, List.getD]

/-- A read depends on the entry it names and on nothing else. -/
theorem romRead_congr {m m' : Memory} {i : Nat} (h : m[i]? = m'[i]?) : romRead m i = romRead m' i := by
  simp [romRead, h]

end Sys2Proof.Machine
end

