-- ==== Sys2Proof/Laws/PerInstr.lean ====
section
/-! SUPPORT. The per-instruction family RoundTrip: an operation is well formed, its code names it, and decoding its
request gives it back. -/

namespace Sys2Proof.Laws.RoundTrip

def Statement (i : Instr) : Prop :=
  i.wf = true ∧ (encode i).wf = true ∧ decode (encode i) = .ok i

theorem sinp (a b : Word) : Statement (.sinp a b) := ⟨rfl, rfl, rfl⟩
theorem cosp (a b : Word) : Statement (.cosp a b) := ⟨rfl, rfl, rfl⟩
theorem sinlut (a b : Word) : Statement (.sinlut a b) := ⟨rfl, rfl, rfl⟩
theorem coslut (a b : Word) : Statement (.coslut a b) := ⟨rfl, rfl, rfl⟩
theorem atan (a b : Word) : Statement (.atan a b) := ⟨rfl, rfl, rfl⟩
theorem atan2 (a b : Word) : Statement (.atan2 a b) := ⟨rfl, rfl, rfl⟩
theorem atan2v2 (a b : Word) : Statement (.atan2v2 a b) := ⟨rfl, rfl, rfl⟩
theorem isqrt (a b : Word) : Statement (.isqrt a b) := ⟨rfl, rfl, rfl⟩
theorem invsqrt (a b : Word) : Statement (.invsqrt a b) := ⟨rfl, rfl, rfl⟩
theorem invsqrtv2 (a b : Word) : Statement (.invsqrtv2 a b) := ⟨rfl, rfl, rfl⟩
theorem mul (a b : Word) : Statement (.mul a b) := ⟨rfl, rfl, rfl⟩

end Sys2Proof.Laws.RoundTrip
end

