-- ==== Sys2Proof/Tests/Slice0.lean ====
section
/-! SUPPORT. The model's own tests. The expected words come from the tables of 95_test_vectors.md (its section stands
beside each group) or are written out by hand from rule R82's codes. The witnesses at the end show a concrete input that
meets the hypotheses of each statement. -/

namespace Sys2Proof.Tests
open Sys2Proof Sys2Proof.Machine

/-! ## Well-formedness: an ill-formed term for each check -/

theorem test_request_wf_mul : Request.wf ⟨0b1010, 0, 0⟩ = true := by decide
theorem test_request_wf_refuses_reserved : Request.wf ⟨0b1011, 0, 0⟩ = false := by decide
theorem test_rom_wf_refuses_short : Memory.wf (Config.sinTable.take 90) = false := by decide
theorem test_rom_wf_refuses_falling : Memory.wf (Config.sinTable.set 45 1) = false := by decide
theorem test_rom_wf_refuses_first : Memory.wf (Config.sinTable.set 0 1) = false := by decide
theorem test_rom_wf_refuses_last : Memory.wf (Config.sinTable.set 90 1001) = false := by decide

/-! ## Decoding: every constructor by a word written out from rule R82 -/

theorem test_decode_sinp : decodeTableWord 36 (0x3FC90FDB * 16 + 0b0000) = some (.sinp 0x3FC90FDB#32 0) := by decide
theorem test_decode_cosp : decodeTableWord 36 (0x40490FDB * 16 + 0b0001) = some (.cosp 0x40490FDB#32 0) := by decide
theorem test_decode_sinlut : decodeTableWord 36 (0x0000012C * 16 + 0b0010) = some (.sinlut 0x12C#32 0) := by decide
theorem test_decode_coslut : decodeTableWord 36 (0xFFFFFC7C * 16 + 0b0011) = some (.coslut 0xFFFFFC7C#32 0) := by
  decide
theorem test_decode_atan : decodeTableWord 36 (0x3F800000 * 16 + 0b0100) = some (.atan 0x3F800000#32 0) := by decide
theorem test_decode_atan2 : decodeTableWord 68 (4 * 2 ^ 36 + 3 * 16 + 0b0101) = some (.atan2 3#32 4#32) := by decide
theorem test_decode_atan2v2 :
    decodeTableWord 68 (0xFFFFFFF5 * 2 ^ 36 + 0xFFFFFFCD * 16 + 0b0110) =
      some (.atan2v2 0xFFFFFFCD#32 0xFFFFFFF5#32) := by decide
theorem test_decode_isqrt : decodeTableWord 36 (0x40000000 * 16 + 0b0111) = some (.isqrt 0x40000000#32 0) := by decide
theorem test_decode_invsqrt : decodeTableWord 36 (0x42C80000 * 16 + 0b1000) = some (.invsqrt 0x42C80000#32 0) := by
  decide
theorem test_decode_invsqrtv2 : decodeTableWord 36 (0x40000000 * 16 + 0b1001) = some (.invsqrtv2 0x40000000#32 0) := by
  decide
theorem test_decode_mul :
    decodeTableWord 68 (7 * 2 ^ 36 + 0xFFFFFED4 * 16 + 0b1010) = some (.mul 0xFFFFFED4#32 7#32) := by decide
theorem test_decode_reserved :
    [0b1011, 0b1100, 0b1101, 0b1110, 0b1111].map (decodeTableWord 8) = List.replicate 5 none := by decide

/-! ## Response words (95_test_vectors.md sections 2.1 to 2.8) -/

/-- The response word to a request over the reference ROM, when there is one. -/
def word? (op : OpCode) (a b : Word) : Option Word :=
  match response Config.sinTable ⟨op, a, b⟩ with
  | .ok w => some w
  | .error _ => none

/-- A signed integer as a word (rule R89). -/
def int (v : Int) : Word := BitVec.ofInt 32 v

theorem test_sinp_minus_zero : word? 0 0x80000000#32 0 = some 0#32 := by decide
theorem test_sinp_overflow : word? 0 0x5F0AC723#32 0 = some 0xFF800000#32 := by decide
theorem test_cosp_hundred : word? 1 0xC2C80000#32 0 = some 0x3F5CEB82#32 := by decide
theorem test_cosp_nan : word? 1 0x7FC00000#32 0 = some Config.nanResult := by rfl
theorem test_sinlut_boundary : word? 2 0x69#32 0 = some 0x3E322D0E#32 := by decide
theorem test_sinlut_least : word? 2 (int (-32768)) 0 = some 0xBF16872B#32 := by decide
theorem test_coslut_wraps : word? 3 (int (-31868)) 0 = some 0xBF16872B#32 := by decide
theorem test_coslut_linear : word? 3 0x325#32 0 = some 0x3E29C91F#32 := by decide
theorem test_atan_minus_half : word? 4 0xBF000000#32 0 = some 0xBEEEC4A0#32 := by decide
theorem test_atan_overflow : word? 4 0xDF800000#32 0 = some Config.nanResult := by rfl
theorem test_atan2_third_quadrant : word? 5 (int (-51)) (int (-11)) = some (int (-1022)) := by decide
theorem test_atan2_extremes : word? 5 (int 2147483647) (int (-2147483648)) = some (int 1353) := by decide
theorem test_atan2v2_third_quadrant : word? 6 (int (-51)) (int (-11)) = some (int (-1021)) := by decide
theorem test_atan2v2_negative_axis : word? 6 0 (int (-1)) = some (int 1800) := by decide
theorem test_isqrt_below_normal : word? 7 0x008026F5#32 0 = some 0x5EFF6C02#32 := by decide
theorem test_isqrt_max : word? 7 0x7F7FFFFF#32 0 = some 0x1F7F9110#32 := by decide
theorem test_invsqrt_below_normal : word? 8 0x008026F5#32 0 = some 0x5EFF6C00#32 := by decide
theorem test_invsqrt_subnormal : word? 8 0x00000001#32 0 = some 0x5F898367#32 := by decide
theorem test_invsqrtv2_three : word? 9 0x40400000#32 0 = some 0x3F13B4A1#32 := by decide
theorem test_invsqrtv2_max : word? 9 0x7F7FFFFF#32 0 = some 0x1F8002AF#32 := by decide
theorem test_mul_least : word? 10 (int (-32768)) (int (-32768)) = some 0x40000000#32 := by decide
theorem test_mul_upper_bits : word? 10 0xFFFF0003#32 0x12340004#32 = some 12#32 := by decide

/-! ## Steps: program P5 and the trace of section 4 -/

/-- What a test reads of an outcome; the default stands for a stop. -/
def view {α : Type} (d : α) (f : State → α) : Host.Outcome State Fault Refusal → α
  | .next s => f s
  | .fault _ => d
  | .refused _ => d

/-- The reset state about to see a request. -/
def offering (r : Request) : State := { State.reset with schedule := [⟨false, true, r, false⟩] }

theorem test_step_accepts_mul :
    view [] (·.inflight) (step (offering ⟨10, 2, 3⟩)) = [⟨⟨10, 2, 3⟩, 6⟩] := by decide
theorem test_step_reserved_sets_faulted : view false (·.faulted) (step (offering ⟨12, 0x3F800000, 0⟩)) = true := by
  decide
theorem test_step_atan2_zero_records :
    view [] (·.violations) (step (offering ⟨5, 0, 0⟩)) = [⟨.atan2Zero, ⟨5, 0, 0⟩⟩] := by decide
theorem test_placed_word_runs : view [] (·.inflight) (step (State.reset.withFetchWord 8 0b1010)) = [⟨⟨10, 0, 0⟩, 0⟩] := by
  decide

/-- r4 of program P1 in flight with its word. -/
def r4 : Transaction := ⟨⟨10, 0xFFFFFE70, 0xFFFFFE70⟩, 0x00027100⟩
/-- r5 of program P1 in flight with its word. -/
def r5 : Transaction := ⟨⟨10, 0x0000012C, 0x0000012C⟩, 0x00015F90⟩
/-- The timing of the trace: `LATENCY` = 2 and `MAX_INFLIGHT` = 2. -/
def traceTiming (early : Bool) : Timing := ⟨2, 2, fun _ => early, 0xDEADBEEF⟩

/-- Edge 2: r5's request is accepted while r4, in flight since edge 1, becomes offered. -/
theorem test_trace_edge_2 :
    view (default, default) (fun s => ((s.inflight, s.rspValid), s.rspR))
      (edge (traceTiming false) ⟨false, true, r5.req, true⟩ { State.reset with inflight := [r4], age := 1 }) =
      (([r4, r5], true), 0x00027100) := by decide

/-- Edge 3: `req_ready` is 0, r4 is taken and r5 is offered in its place. -/
theorem test_trace_edge_3 :
    view (default, default) (fun s => ((s.inflight, s.taken), s.rspR))
      (edge (traceTiming true) ⟨false, false, ⟨0, 0, 0⟩, true⟩
        { State.reset with inflight := [r4, r5], rspValid := true, rspR := 0x00027100 }) =
      (([r5], [r4]), 0x00015F90) := by decide

/-- A block quick at MUL and slow at ATAN2 offers the one at once and lets the other wait an edge (rule R258's
example). -/
theorem test_latency_differs_between_codes :
    ∀ op ∈ [10#4, 5#4], view none (fun s => some s.rspValid)
      (edge ⟨2, 2, fun r => decide (r.op = 10), 0⟩ ⟨false, true, ⟨op, 3, 4⟩, true⟩ State.reset) =
      some (decide (op = 10)) := by decide

/-- A full list keeps a request waiting, and the host must hold it. -/
theorem test_full_list_waits :
    view none (·.pending) (edge (traceTiming false) ⟨false, true, r5.req, false⟩
      { State.reset with inflight := [r4, r4], rspValid := true }) = some r5.req := by decide

/-- A reset edge drops what is in flight and keeps `faulted`. -/
theorem test_reset_edge :
    view (default, false) (fun s => (s.inflight, s.faulted)) (edge (traceTiming true) ⟨true, true, r5.req, true⟩
      { State.reset with inflight := [r4], rspValid := true, faulted := true }) = ([], true) := by decide

/-! ## Witnesses of the statements' hypotheses -/

theorem inv_reset_like (sched : List Pins) : Inv { State.reset with schedule := sched } where
  romWf := reset_rom_wf
  room := by simp [State.reset]
  offered := by simp [State.reset]
  answered := by simp [State.reset]
  delivered := by simp [State.reset]
  waits := by simp [State.reset, Config.latency]
  idle := by simp [State.reset]
  recorded := by simp [State.reset]
  genuine := by simp [State.reset]
  unspecified := by simp [State.reset]

/-- r4 in flight, offered or not. -/
def holding (valid : Bool) (sched : List Pins) : State :=
  { State.reset with inflight := [r4], rspValid := valid, rspR := r4.rsp, schedule := sched }

theorem inv_holding (valid : Bool) (sched : List Pins) : Inv (holding valid sched) where
  romWf := reset_rom_wf
  room := by simp [holding, Config.maxInflight]
  offered := fun _ => ⟨r4, [], rfl, rfl⟩
  answered := by simp only [holding, List.mem_singleton, forall_eq]; rfl
  delivered := by simp [holding, State.reset]
  waits := by simp [holding, State.reset, Config.latency]
  idle := by simp [holding]
  recorded := by simp [holding, State.reset]
  genuine := by simp [holding, State.reset]
  unspecified := by
    simp only [holding, State.reset, List.nil_append, List.mem_singleton, forall_eq]
    intro h
    exact absurd h (by decide)

/-- With nothing scheduled and nothing held, a run never stops. -/
theorem idle_run (n : Nat) : ∀ s : State, s.schedule = [] → s.pending = none → ∃ t, core.run n s = .next t := by
  induction n with
  | zero => intro s _ _; exact ⟨s, rfl⟩
  | succ n ih =>
    intro s hs hp
    have h : step s = .next (offerResponse (timing s.draws) (withoutAccept (nextPins s) s)) := by
      simp [step, edge, nextPins, hs, hp, idlePins, keepsHold]
    obtain ⟨t, ht⟩ := ih (offerResponse (timing s.draws) (withoutAccept (nextPins s) s))
      (by simp [withoutAccept, hs]) (by simp [withoutAccept, nextPins, hs, hp, idlePins])
    refine ⟨t, ?_⟩
    have hc : core.step s = .next (offerResponse (timing s.draws) (withoutAccept (nextPins s) s)) := h
    simp only [Host.Core.run, hc]
    exact ht

theorem witness_packedWordDecodes : Instr.wf (.mul 0xFFFFFFFF#32 0x80000000#32) = true := rfl
theorem witness_packedWordIsEncoding : decodeTableWord 68 (0b0100#68).toNat = some (.atan 0 0) := by decide
theorem witness_opAloneSelects :
    (⟨10, 1, 2⟩ : Request).op = (⟨10, 3, 4⟩ : Request).op ∧ decode ⟨10, 1, 2⟩ = .ok (.mul 1 2) ∧
      (⟨15, 1, 2⟩ : Request).op = (⟨15, 3, 4⟩ : Request).op ∧ decode ⟨15, 1, 2⟩ = .error (.reservedOp 15) :=
  ⟨rfl, rfl, rfl, rfl⟩

/-- Statements about an edge that accepts an operation. -/
theorem witness_acceptingEdge :
    let s := offering ⟨10, 2, 3⟩
    Inv s ∧ Memory.wf s.rom = true ∧ keepsHold s.pending (nextPins s) = true ∧ (nextPins s).reqValid = true ∧
      (nextPins s).rst = false ∧ reqReady Config.maxInflight (nextPins s) s = true ∧
      s.inflight.length < Config.maxInflight ∧ decode (nextPins s).req = .ok (.mul 2 3) ∧ (∃ t, step s = .next t) :=
  ⟨inv_reset_like _, reset_rom_wf, rfl, rfl, rfl, rfl, by simp [offering, State.reset, Config.maxInflight], rfl,
    ⟨_, rfl⟩⟩

/-- Statements about an edge that accepts a reserved code, the least and the greatest one. -/
theorem witness_reservedEdge :
    ∀ op ∈ [11#4, 15#4], let s := offering ⟨op, 0, 0⟩
      keepsHold s.pending (nextPins s) = true ∧ (nextPins s).reqValid = true ∧
      reqReady Config.maxInflight (nextPins s) s = true ∧ 11 ≤ (nextPins s).req.op.toNat := by
  simp only [List.mem_cons, List.not_mem_nil, or_false, forall_eq_or_imp, forall_eq]
  exact ⟨⟨rfl, rfl, rfl, by decide⟩, ⟨rfl, rfl, rfl, by decide⟩⟩

/-- Statements about a placed word. -/
theorem witness_placedWord : decodeTableWord 8 0b0101 = some (.atan2 0 0) := by decide

/-- Statements about an edge that accepts nothing, because nothing is offered or because the list is full. -/
theorem witness_notAcceptingEdge :
    (let s := holding false []
     Inv s ∧ (nextPins s).rst = false ∧ s.rspValid = false ∧ s.inflight = [r4] ∧
       ¬ ((nextPins s).reqValid = true ∧ s.inflight.length < Config.maxInflight) ∧ ∃ t, step s = .next t) ∧
    (let s := { State.reset with
                  inflight := List.replicate Config.maxInflight r4, schedule := [⟨false, true, r5.req, false⟩] }
     (nextPins s).rst = false ∧ ¬ ((nextPins s).reqValid = true ∧ s.inflight.length < Config.maxInflight) ∧
       ∃ t, step s = .next t) := by
  refine ⟨⟨inv_holding _ _, rfl, rfl, rfl, ?_, ⟨_, rfl⟩⟩, rfl, ?_, ?_⟩
  · simp [holding, nextPins, State.reset, idlePins]
  · simp
  · simp [step, edge_next_iff, nextPins, keepsHold, State.reset, hasRoom, timing, Config.maxInflight,
      List.replicate_succ]

/-- Statements about a reset edge, and about the edge after it that accepts a request. -/
theorem witness_resetEdges :
    let pr : Pins := ⟨true, false, ⟨0, 0, 0⟩, false⟩
    (let s := holding true [pr, pr]
     keepsHold s.pending (nextPins s) = true ∧ (nextPins s).rst = true ∧
       ∃ t, step s = .next t ∧ (nextPins t).rst = true ∧ ∃ u, step t = .next u) ∧
    (let s := holding true [pr, ⟨false, true, r5.req, false⟩]
     Memory.wf s.rom = true ∧ (nextPins s).rst = true ∧
       ∃ t, step s = .next t ∧ keepsHold t.pending (nextPins t) = true ∧ (nextPins t).rst = false ∧
         (nextPins t).reqValid = true) :=
  ⟨⟨rfl, rfl, _, rfl, rfl, _, rfl⟩, reset_rom_wf, rfl, _, rfl, rfl, rfl, rfl⟩

/-- Statements about an idle edge after reset. -/
theorem witness_idleEdge :
    let s := State.reset
    (∃ t, step s = .next t) ∧ s.inflight = [] ∧ s.rspValid = false ∧ (nextPins s).reqValid = false :=
  ⟨⟨_, rfl⟩, rfl, rfl, rfl⟩

/-- Statements about an offered response, kept waiting or taken. -/
theorem witness_offeredResponse :
    ∀ ready : Bool, let s := holding true [⟨false, false, ⟨0, 0, 0⟩, ready⟩]
      Inv s ∧ s.rspValid = true ∧ (nextPins s).rst = false ∧ (nextPins s).rspReady = ready ∧
        ∃ t, step s = .next t :=
  fun _ => ⟨inv_holding _ _, rfl, rfl, rfl, ⟨_, by simp only [step]; rfl⟩⟩

/-- Statements about a run: one long enough for the latency bound. -/
theorem witness_run :
    let s := holding false []
    Inv s ∧ (∃ t, core.run Config.latency s = .next t) ∧ (∀ p ∈ s.schedule, p.rst = false) ∧ s.inflight ≠ [] ∧
      s.rspValid = false ∧ Config.latency ≤ s.age + Config.latency :=
  ⟨inv_holding _ _, idle_run _ _ rfl rfl, by simp [holding], by simp [holding], rfl, by omega⟩

/-- The two cases of a step's stop: the host keeps its request, or changes it. -/
theorem witness_hold :
    let s (r : Request) := { State.reset with pending := some r5.req, schedule := [⟨false, true, r, true⟩] }
    Memory.wf (s r5.req).rom = true ∧
      (∀ r, (s r5.req).pending = some r → (nextPins (s r5.req)).reqValid = true ∧ (nextPins (s r5.req)).req = r) ∧
      (s r4.req).pending = some r5.req ∧
      ¬ ((nextPins (s r4.req)).reqValid = true ∧ (nextPins (s r4.req)).req = r5.req) :=
  ⟨reset_rom_wf, fun _ h => ⟨rfl, Option.some.inj h⟩, rfl, by decide⟩

/-- The edges that decide what the host holds next: a request offered under reset, at a full list, and accepted. -/
theorem witness_nextHold :
    (let s := { State.reset with schedule := [⟨true, true, r5.req, false⟩] }
     (nextPins s).reqValid = true ∧ reqReady Config.maxInflight (nextPins s) s = false ∧ ∃ t, step s = .next t) ∧
    (let s := { State.reset with
                  inflight := List.replicate Config.maxInflight r4, schedule := [⟨false, true, r5.req, false⟩] }
     (nextPins s).reqValid = true ∧ reqReady Config.maxInflight (nextPins s) s = false ∧ ∃ t, step s = .next t) ∧
    (let s := offering r5.req
     reqReady Config.maxInflight (nextPins s) s = true ∧ ∃ t, step s = .next t) := by
  refine ⟨⟨rfl, rfl, _, rfl⟩, ⟨rfl, ?_, ?_⟩, rfl, _, rfl⟩
  · simp [reqReady, nextPins, hasRoom, Config.maxInflight, List.replicate_succ]
  · simp [step, edge_next_iff, nextPins, keepsHold, State.reset, hasRoom, timing, Config.maxInflight,
      List.replicate_succ]

/-- Statements about a next state of an operation, with and without a violation. -/
theorem witness_execNext :
    (∃ t, exec (.atan2 0 0) State.reset = .next t) ∧ violationOfInstr (.atan2 0 0) = some .atan2Zero ∧
      (∃ t, exec (.mul 2 3) State.reset = .next t) ∧ violationOfInstr (.mul 2 3) = none :=
  ⟨⟨_, rfl⟩, by decide, ⟨_, rfl⟩, rfl⟩

theorem witness_ignoredBits :
    (0x1234012C#32).toNat % 2 ^ 16 = (0x0000012C#32).toNat % 2 ^ 16 ∧
      (0xFFFF8000#32).toNat % 2 ^ 16 = (0x00008000#32).toNat % 2 ^ 16 := by decide

/-- An infinity and the NaN with all bits set. -/
theorem witness_nonFinite :
    (0x7F800000#32).toNat / 2 ^ 23 % 256 = 255 ∧ (0xFFFFFFFF#32).toNat / 2 ^ 23 % 256 = 255 := by decide

/-- The largest argument that WRAP confines, 2^23, and its negative. -/
theorem witness_wrap :
    f32 0x4B000000#32 = .fin false (2 ^ 23 * 2 ^ 149) ∧ f32 0xCB000000#32 = .fin true (2 ^ 23 * 2 ^ 149) := by decide

/-- An angle at the end of each quadrant. -/
theorem witness_sinlutQuadrants :
    Memory.wf State.reset.rom = true ∧
    (∀ q ∈ [((900 : Int), (900 : Nat), (1 : Int), (900 : Nat)), (1800, 1800, 1, 0), (-2700, 2700, -1, 900),
        (3599, 3599, -1, 1)],
      q.1 = (BitVec.ofNat 16 (int q.1).toNat).toInt ∧ q.2.1 = q.1.natAbs % 3600 ∧
      ((q.2.1 ≤ 900 ∧ q.2.2.1 = 1 ∧ q.2.2.2 = q.2.1) ∨
       (900 < q.2.1 ∧ q.2.1 ≤ 1800 ∧ q.2.2.1 = 1 ∧ q.2.2.2 = 1800 - q.2.1) ∨
       (1800 < q.2.1 ∧ q.2.1 ≤ 2700 ∧ q.2.2.1 = -1 ∧ q.2.2.2 = q.2.1 - 1800) ∨
       (2700 < q.2.1 ∧ q.2.2.1 = -1 ∧ q.2.2.2 = 3600 - q.2.1))) := by
  exact ⟨reset_rom_wf, by decide⟩

/-- The angle -31869, whose shift leaves 16 bits, and the wrapped angle -32767. -/
theorem witness_coslutShift :
    ((int (-32767)).toNat % 2 ^ 16 : Int) = (900 - ((int (-31869)).toNat : Int)) % 2 ^ 16 := by decide

/-- Two ROMs that differ only below index 10. -/
theorem witness_lutRoms :
    Config.sinTable ≠ Config.sinTable.set 9 150 ∧
      ∀ i, 10 ≤ i → i ≤ 90 → Config.sinTable[i]? = (Config.sinTable.set 9 150)[i]? := by
  refine ⟨by decide, fun i h _ => ?_⟩
  rw [List.getElem?_set_ne (by omega)]

/-- The largest encoding below 2^64 and the least from 2^64 on. -/
theorem witness_atanRange :
    (0x5F7FFFFF#32).toNat % 2 ^ 31 < 0x5F800000 ∧ 0x5F800000 ≤ (0xDF800000#32).toNat % 2 ^ 31 := by decide

theorem witness_atan2Nonzero : ¬ ((1#32) = 0 ∧ (0#32) = 0) := by decide
theorem witness_axes : 0 < (1#32).toInt ∧ (0x80000000#32).toInt < 0 := by decide

/-- The ends of the inverse square root's domain, and a word of each kind outside it. -/
theorem witness_isqrtDomain :
    (0 < (1#32).toNat ∧ (1#32).toNat < 0x7F800000) ∧ (0 < (0x7F7FFFFF#32).toNat ∧ (0x7F7FFFFF#32).toNat < 0x7F800000) ∧
      ∀ a ∈ [0#32, 0x7F800000#32, 0x80000000#32, 0xBF800000#32, 0x7FC00000#32], a = 0 ∨ 0x7F800000 ≤ a.toNat := by
  simp

theorem witness_seed : (0x7FFFFFFF#32).toNat < 2 ^ 31 ∧ 0x5F1FFFF9#32 = Config.magicV2 := by decide

theorem witness_isqrtAgrees : 0x01000000 ≤ (0x01000000#32).toNat ∧ (0x01000000#32).toNat < 0x7F800000 := by decide

/-- A tie that rounds to even, a tie in the subnormals, and a value that overflows. -/
theorem witness_roundsTie : roundMag 33554433 2 = some 16777216 := by decide
theorem witness_roundsSubnormal : roundMag 3 2 = some 2 := by decide
theorem witness_overflows : roundMag (2 ^ 25 * 2 ^ 252) 1 = none := by decide +kernel

/-- A sum of opposite signs, a zero sum, a product and a quotient; and one of each that overflows. -/
theorem witness_arithmetic :
    fadd (.fin false 3) (.fin true 5) = .fin true 2 ∧ fmul (.fin true unitsPerOne) (.fin false 7) = .fin true 7 ∧
      fdiv (.fin false 7) (.fin true unitsPerOne) = .fin true 7 := by decide

theorem witness_arithmeticOverflows :
    fadd (f32 0x7F7FFFFF#32) (f32 0x7F7FFFFF#32) = .inf false ∧
      fmul (f32 0xFF7FFFFF#32) (f32 0x40000000#32) = .inf true ∧
      fdiv (f32 0x7F7FFFFF#32) (f32 0x80000001#32) = .inf true := by decide +kernel

theorem witness_nanResult : fadd (.inf false) (.inf true) = .nan Config.nanResult := rfl

theorem witness_conversions : (-16777216 : Int).natAbs ≤ 2 ^ 24 ∧ (-2147483648 : Int).natAbs ≤ 2 ^ 31 := by decide

end Sys2Proof.Tests
end

/-! # Proofs: the binary32 primitives (family 00_scope, rules R10 to R16) -/

namespace Sys2Proof.Machine

/-! ## Which data an operation yields (rule R14) -/

/-- A datum that is a NaN only as the datum of `NAN_RESULT`. -/
def NanIsResult (f : F32) : Prop := ∀ w, f = .nan w → w = Config.nanResult

@[simp] theorem nanIsResult_nanF : NanIsResult nanF := fun _ h => (F32.nan.inj h).symm

@[simp] theorem nanIsResult_inf (s : Bool) : NanIsResult (.inf s) := nofun

@[simp] theorem nanIsResult_fin (s : Bool) (m : Nat) : NanIsResult (.fin s m) := nofun

@[simp] theorem nanIsResult_roundF (s : Bool) (n d : Nat) : NanIsResult (roundF s n d) :=
  fun w h => (roundF_ne_nan s n d w h).elim

/-! Each branch of an operation answers `nanF`, an infinity, a finite datum or a rounding. -/

theorem nanIsResult_fadd (p q : F32) : NanIsResult (fadd p q) := by
  fun_cases fadd p q <;> simp

theorem nanIsResult_fmul (p q : F32) : NanIsResult (fmul p q) := by
  fun_cases fmul p q <;> simp

theorem nanIsResult_fdiv (p q : F32) : NanIsResult (fdiv p q) := by
  fun_cases fdiv p q <;> simp

/-- Settles O54: a NaN comes from the special cases alone, which all answer `NAN_RESULT`; a rounding yields none. -/
theorem nanResultsAreOneEncoding : Obligations.NanResultsAreOneEncoding := by
  refine ⟨f32_nanResult, fun p q w h => ?_⟩
  rcases h with h | h | h | h
  · exact nanIsResult_fadd p q w h
  · exact nanIsResult_fadd p (fneg q) w h
  · exact nanIsResult_fmul p q w h
  · exact nanIsResult_fdiv p q w h

/-! ## The datum of a word by its fields (rule R10) -/

section
variable {w : Word}

theorem f32_of_infinity (he : (w.extractLsb' 23 8).toNat = 255) (hf : (w.extractLsb' 0 23).toNat = 0) :
    f32 w = .inf (w.getLsbD 31) := by
  simp only [f32, he, hf, if_true]

theorem f32_of_nan (he : (w.extractLsb' 23 8).toNat = 255) (hf : (w.extractLsb' 0 23).toNat ≠ 0) :
    f32 w = .nan w := by
  simp only [f32, he, hf, if_true, if_false]

theorem f32_of_subnormal (he : (w.extractLsb' 23 8).toNat = 0) :
    f32 w = .fin (w.getLsbD 31) (w.extractLsb' 0 23).toNat := by
  simp [f32, he]

theorem f32_of_normal (h0 : (w.extractLsb' 23 8).toNat ≠ 0) (h255 : (w.extractLsb' 23 8).toNat ≠ 255) :
    f32 w = .fin (w.getLsbD 31) ((2 ^ 23 + (w.extractLsb' 0 23).toNat) * 2 ^ ((w.extractLsb' 23 8).toNat - 1)) := by
  simp only [f32, h0, h255, if_false]

end

/-! ## Clearing the sign bit (rule R15) -/

/-- The mask of rule R15 holds every bit but the sign. -/
theorem getLsbD_clearSign (w : Word) (i : Nat) :
    (w &&& 0x7FFFFFFF#32).getLsbD i = (w.getLsbD i && decide (i < 31)) := by
  have hmask : (0x7FFFFFFF#32).getLsbD i = decide (i < 31) := by
    rw [show (0x7FFFFFFF#32) = BitVec.ofNat 32 (2 ^ 31 - 1) from rfl, BitVec.getLsbD_ofNat, Nat.testBit_two_pow_sub_one,
      ← Bool.decide_and]
    exact decide_eq_decide.2 (by omega)
  rw [BitVec.getLsbD_and, hmask]

theorem extract_clearSign (w : Word) {start len : Nat} (h : start + len ≤ 31) :
    (w &&& 0x7FFFFFFF#32).extractLsb' start len = w.extractLsb' start len := by
  apply BitVec.eq_of_getLsbD_eq
  intro i hi
  rw [BitVec.getLsbD_extractLsb', BitVec.getLsbD_extractLsb', getLsbD_clearSign,
    decide_eq_true (show start + i < 31 by omega), Bool.and_true]

/-- Settles O55: the mask leaves exponent and fraction, so each class of data is kept with its sign bit cleared. -/
theorem fabsClearsTheSignBit : Obligations.FabsClearsTheSignBit := by
  intro w
  have hs : (w &&& 0x7FFFFFFF#32).getLsbD 31 = false := (getLsbD_clearSign w 31).trans (Bool.and_false _)
  have he := extract_clearSign w (start := 23) (len := 8) le_rfl
  have hf := extract_clearSign w (start := 0) (len := 23) (by norm_num)
  by_cases h255 : (w.extractLsb' 23 8).toNat = 255
  · by_cases h0 : (w.extractLsb' 0 23).toNat = 0
    · rw [f32_of_infinity h255 h0, f32_of_infinity (by rw [he, h255]) (by rw [hf, h0]), hs, fabs]
    · rw [f32_of_nan h255 h0, f32_of_nan (by rw [he, h255]) (by rwa [hf]), fabs]
  · by_cases h0 : (w.extractLsb' 23 8).toNat = 0
    · rw [f32_of_subnormal h0, f32_of_subnormal (by rw [he, h0]), hs, hf, fabs]
    · rw [f32_of_normal h0 h255, f32_of_normal (by rwa [he]) (by rwa [he]), hs, he, hf, fabs]

/-! ## Representable magnitudes have encodings (rule R10) -/

/-- Its encoding has the exponent field `e + 1` above a fraction short of the leading bit, or 0 for a subnormal. -/
theorem IsMag.representable {k : Nat} (hk : IsMag k) : Representable k := by
  obtain ⟨m, e, hm, he, hme, rfl⟩ := hk
  rcases Nat.lt_or_ge m (2 ^ 23) with hlt | hge
  · obtain rfl : e = 0 := by omega
    have h := f32_of_subnormal (w := 0#1 ++ (0#8 ++ BitVec.ofNat 23 m)) (by rw [exponent_of_append]; rfl)
    rw [fraction_of_append, BitVec.toNat_ofNat, Nat.mod_eq_of_lt hlt] at h
    exact ⟨_, _, by rw [h, Nat.pow_zero, Nat.mul_one]⟩
  · have hexp : (BitVec.ofNat 8 (e + 1)).toNat = e + 1 := by
      rw [BitVec.toNat_ofNat, Nat.mod_eq_of_lt (by omega)]
    have hfrac : (BitVec.ofNat 23 (m - 2 ^ 23)).toNat = m - 2 ^ 23 := by
      rw [BitVec.toNat_ofNat, Nat.mod_eq_of_lt (by omega)]
    have h := f32_of_normal (w := 0#1 ++ (BitVec.ofNat 8 (e + 1) ++ BitVec.ofNat 23 (m - 2 ^ 23)))
      (by rw [exponent_of_append, hexp]; omega) (by rw [exponent_of_append, hexp]; omega)
    rw [exponent_of_append, fraction_of_append, hexp, hfrac, Nat.add_sub_cancel, Nat.add_sub_of_le hge] at h
    exact ⟨_, _, h⟩

theorem representable_iff_isMag {k : Nat} : Representable k ↔ IsMag k :=
  ⟨fun ⟨_, _, h⟩ => isMag_of_f32 h, IsMag.representable⟩

theorem binade_of_significand {m e : Nat} (hm : m < 2 ^ 24) (hme : e = 0 ∨ 2 ^ 23 ≤ m) : binade (m * 2 ^ e) = e := by
  rcases hme with rfl | hge
  · rw [Nat.pow_zero, Nat.mul_one, binade_eq_zero hm]
  · have hlog : Nat.log2 (m * 2 ^ e) = 23 + e := by
      rw [Nat.log2_eq_iff (by positivity)]
      constructor
      · rw [Nat.pow_add]
        exact Nat.mul_le_mul_right _ hge
      · rw [show 23 + e + 1 = 24 + e by omega, Nat.pow_add]
        exact Nat.mul_lt_mul_of_pos_right hm (by positivity)
    rw [binade, hlog, Nat.add_sub_cancel_left]

theorem magBits_of_significand {m e : Nat} (hm : m < 2 ^ 24) (hme : e = 0 ∨ 2 ^ 23 ≤ m) :
    magBits (m * 2 ^ e) = e * 2 ^ 23 + m := by
  rw [magBits, binade_of_significand hm hme, Nat.mul_div_cancel _ (by positivity)]

/-! ## Rounding is to nearest, ties to even (rule R11) -/

/-- `divEven` takes the quotient or the next number, whichever is nearer, and the even one at a tie. -/
theorem divEven_cases (n d : Nat) :
    (divEven n d = n / d ∧ (2 * (n % d) < d ∨ 2 * (n % d) = d ∧ n / d % 2 = 0)) ∨
      (divEven n d = n / d + 1 ∧ (d < 2 * (n % d) ∨ 2 * (n % d) = d ∧ n / d % 2 = 1)) := by
  unfold divEven
  dsimp only
  split_ifs <;> omega

/-- A multiple of `d` is one of the two neighbours `q * d`, `(q + 1) * d`, or at least `d` beyond them. -/
theorem multiple_beside (i q d : Nat) :
    (i < q ∧ i * d + d ≤ q * d) ∨ i = q ∨ i = q + 1 ∨ (q + 1 < i ∧ q * d + 2 * d ≤ i * d) := by
  rcases Nat.lt_trichotomy i q with h | h | h
  · exact .inl ⟨h, (Nat.succ_mul i d).symm.trans_le (Nat.mul_le_mul_right d h)⟩
  · exact .inr (.inl h)
  · rcases Nat.eq_or_lt_of_le h with h | h
    · exact .inr (.inr (.inl h.symm))
    · exact .inr (.inr (.inr ⟨h, (Nat.add_mul q 2 d).symm.trans_le (Nat.mul_le_mul_right d h)⟩))

/-- No multiple of `d` is nearer to `n` than the one `divEven` chooses, and where another one is as near it chooses the
even one. -/
theorem divEven_nearest {n d : Nat} (hd : 0 < d) (i : Nat) :
    ((divEven n d * d : Int) - n).natAbs ≤ ((i * d : Int) - n).natAbs ∧
      (((divEven n d * d : Int) - n).natAbs = ((i * d : Int) - n).natAbs → i ≠ divEven n d →
        divEven n d % 2 = 0) := by
  have hn : n / d * d + n % d = n := Nat.div_add_mod' n d
  have hr := Nat.mod_lt n hd
  have hj := divEven_cases n d
  have hi := multiple_beside i (n / d) d
  have hnext : (n / d + 1) * d = n / d * d + d := Nat.succ_mul ..
  generalize divEven n d = j at *
  generalize n % d = r at *
  generalize n / d = q at *
  subst hn
  rw [← Nat.cast_mul, ← Nat.cast_mul]
  rcases hj with ⟨rfl, hj⟩ | ⟨rfl, hj⟩ <;> rcases hi with hi | rfl | rfl | hi <;> omega

/-- The significand that `roundMag` chooses in the binade of `n / d`. -/
theorem divEven_significand {n d : Nat} (hd : 0 < d) :
    divEven n (d * 2 ^ binade (n / d)) ≤ 2 ^ 24 ∧
      (binade (n / d) = 0 ∨ 2 ^ 23 ≤ divEven n (d * 2 ^ binade (n / d))) := by
  have hup := (Nat.div_lt_iff_lt_mul hd).1 (lt_two_pow_binade (n / d))
  refine ⟨divEven_le (by positivity) ?_, ?_⟩
  · calc n ≤ 2 ^ (24 + binade (n / d)) * d := hup.le
      _ = 2 ^ 24 * (d * 2 ^ binade (n / d)) := by rw [Nat.pow_add]; ring
  · rcases Nat.eq_zero_or_pos (binade (n / d)) with h0 | h0
    · exact .inl h0
    · refine .inr (le_divEven (by positivity) ?_)
      calc 2 ^ 23 * (d * 2 ^ binade (n / d)) = 2 ^ (23 + binade (n / d)) * d := by rw [Nat.pow_add]; ring
        _ ≤ n := (Nat.le_div_iff_mul_le hd).1 (two_pow_binade_le h0)

/-- An answer of `roundMag` is not the power of two beyond the largest finite magnitude (rule R12). -/
theorem roundMag_not_overflow {n d r : Nat} (h : roundMag n d = some r) :
    ¬ (binade (n / d) = 253 ∧ divEven n (d * 2 ^ binade (n / d)) = 2 ^ 24) := by
  intro hover
  unfold roundMag at h
  dsimp only at h
  rw [if_pos hover, ite_self] at h
  cases h

/-- The rounded magnitude as a significand in a binade: `2 ^ 24` there is `2 ^ 23` in the next. -/
theorem isMag_of_carry {j e : Nat} (hj : j ≤ 2 ^ 24) (hje : e = 0 ∨ 2 ^ 23 ≤ j) (he : e ≤ 253)
    (hmax : ¬ (e = 253 ∧ j = 2 ^ 24)) : IsMag (j * 2 ^ e) := by
  rcases Nat.lt_or_eq_of_le hj with hlt | rfl
  · exact ⟨j, e, hlt, he, hje, rfl⟩
  · exact ⟨2 ^ 23, e + 1, by norm_num, by omega, .inr le_rfl, by rw [Nat.pow_succ]; ring⟩

/-- An even significand gives an even encoding. -/
theorem magBits_even {j e : Nat} (hj : j ≤ 2 ^ 24) (hje : e = 0 ∨ 2 ^ 23 ≤ j) (heven : j % 2 = 0) :
    magBits (j * 2 ^ e) % 2 = 0 := by
  rcases Nat.lt_or_eq_of_le hj with hlt | rfl
  · rw [magBits_of_significand hlt hje]
    omega
  · rw [show 2 ^ 24 * 2 ^ e = 2 ^ 23 * 2 ^ (e + 1) by rw [Nat.pow_succ]; ring,
      magBits_of_significand (by norm_num) (.inr le_rfl)]
    omega

theorem roundMag_isMag {n d r : Nat} (hd : 0 < d) (h : roundMag n d = some r) : IsMag r := by
  obtain ⟨he, rfl⟩ := roundMag_some h
  obtain ⟨hj, hje⟩ := divEven_significand (n := n) hd
  exact isMag_of_carry hj hje he (roundMag_not_overflow h)

/-- A magnitude below the binade of `n / d` is farther from it than the least one of the binade. -/
theorem below_binade_farther {n d k e : Nat} (hd : 0 < d) (hk : k < 2 ^ (23 + e)) (hn : 2 ^ (23 + e) * d ≤ n) :
    (((2 ^ 23 : Nat) * (d * 2 ^ e : Nat) : Int) - n).natAbs < ((k * d : Int) - n).natAbs := by
  have hk' : k * d < 2 ^ (23 + e) * d := Nat.mul_lt_mul_of_pos_right hk hd
  have hD : 2 ^ 23 * (d * 2 ^ e) = 2 ^ (23 + e) * d := by rw [Nat.pow_add]; ring
  rw [← Nat.cast_mul, ← Nat.cast_mul, hD]
  omega

/-- The answer of `roundMag` is the nearest representable magnitude, ties to the even encoding: within the binade the
others are multiples of its unit, and below it they are farther away. -/
theorem roundMag_nearestEven {n d r : Nat} (hd : 0 < d) (h : roundMag n d = some r) : NearestEven n d r := by
  refine ⟨(roundMag_isMag hd h).representable, fun k hk => ?_⟩
  obtain ⟨-, rfl⟩ := roundMag_some h
  obtain ⟨hj, hje⟩ := divEven_significand (n := n) hd
  have hbin : binade (n / d) = 0 ∨ 2 ^ (23 + binade (n / d)) * d ≤ n :=
    (Nat.eq_zero_or_pos _).imp_right fun hpos => (Nat.le_div_iff_mul_le hd).1 (two_pow_binade_le hpos)
  generalize binade (n / d) = e at *
  have hD : 0 < d * 2 ^ e := by positivity
  have hscale (i : Nat) : ((i * 2 ^ e : Nat) * d : Int) = i * (d * 2 ^ e : Nat) := by push_cast; ring
  by_cases hin : e = 0 ∨ 2 ^ (23 + e) ≤ k
  · obtain ⟨i, rfl⟩ := (representable_iff_isMag.1 hk).multiple hin
    obtain ⟨hnear, htie⟩ := divEven_nearest (n := n) hD i
    rw [hscale, hscale]
    exact ⟨hnear, fun heq hne => magBits_even hj hje (htie heq (ne_of_apply_ne (· * 2 ^ e) hne))⟩
  · push Not at hin
    have hfar := below_binade_farther hd hin.2 (hbin.resolve_left hin.1)
    have hnear := (divEven_nearest (n := n) hD (2 ^ 23)).1
    rw [hscale]
    exact ⟨(hnear.trans_lt hfar).le, fun heq => absurd heq (hnear.trans_lt hfar).ne⟩

/-! ## Conversions (rule R16) -/

theorem roundF_of_roundMag {neg : Bool} {n d m : Nat} (h : roundMag n d = some m) : roundF neg n d = .fin neg m := by
  unfold roundF
  rw [h]

theorem i2f_of_roundMag {n : Int} {m : Nat} (h : roundMag (n.natAbs * unitsPerOne) 1 = some m) :
    i2f n = .fin (decide (n < 0)) m :=
  roundF_of_roundMag h

theorem i2f_exact {n : Int} (h : n.natAbs ≤ 2 ^ 24) : i2f n = .fin (decide (n < 0)) (n.natAbs * unitsPerOne) := by
  refine i2f_of_roundMag ?_
  have hround := roundMag_exact Nat.one_pos (isMag_int h)
  rwa [Nat.mul_one] at hround

/-- `2 ^ 31`, the largest magnitude that rule R16 converts, is representable, so no conversion overflows. -/
theorem i2f_nearest {n : Int} (h : n.natAbs ≤ 2 ^ 31) :
    ∃ m, i2f n = .fin (decide (n < 0)) m ∧ NearestEven (n.natAbs * unitsPerOne) 1 m := by
  have hmag : IsMag (2 ^ 31 * unitsPerOne) :=
    ⟨2 ^ 23, 157, by norm_num, by norm_num, .inr le_rfl, by rw [unitsPerOne]; norm_num⟩
  have hle : n.natAbs * unitsPerOne ≤ 2 ^ 31 * unitsPerOne * 1 :=
    (Nat.mul_le_mul_right _ h).trans_eq (Nat.mul_one _).symm
  obtain ⟨m, hm, -⟩ := roundMag_of_le Nat.one_pos hmag hle
  exact ⟨m, i2f_of_roundMag hm, roundMag_nearestEven Nat.one_pos hm⟩

/-- Settles O56: an integer is a whole number of units, exact or rounded once; truncation is the whole quotient. -/
theorem conversionsFollowTheirRule : Obligations.ConversionsFollowTheirRule := by
  have hunit : (2 ^ 149 : Nat) = unitsPerOne := by rw [unitsPerOne]
  unfold Obligations.ConversionsFollowTheirRule
  rw [hunit]
  refine ⟨fun n => i2f_exact, fun n => i2f_nearest, fun neg mag => ⟨mag / unitsPerOne, ?_, ?_, ?_⟩⟩
  · exact Nat.div_mul_le_self ..
  · exact Nat.lt_mul_of_div_lt (Nat.lt_succ_self _) (by rw [unitsPerOne]; positivity)
  · rw [ftrunc]

end Sys2Proof.Machine


/-! # Proofs: the response outputs at an edge (family 10_state, rule R36) -/

namespace Sys2Proof.Machine

/-! ## The response outputs before they are set anew: only taking a response changes them -/

section
variable (p : Pins) (s : State)

@[simp] theorem beforeAccept_rspValid : (beforeAccept p s).rspValid = (takeResponse p s).rspValid :=
  takeResponse_advance_rspValid p s

@[simp] theorem beforeAccept_rspR : (beforeAccept p s).rspR = s.rspR := takeResponse_rspR p (advance s)

@[simp] theorem withoutAccept_rspValid : (withoutAccept p s).rspValid = (takeResponse p s).rspValid :=
  takeResponse_advance_rspValid p s

@[simp] theorem withoutAccept_rspR : (withoutAccept p s).rspR = s.rspR := takeResponse_rspR p (advance s)

end

/-- An edge without reset, whether it accepts a request or not, sets the response outputs from those that taking a
response leaves. -/
theorem edge_offers_of_not_reset {τ : Timing} {p : Pins} {s t : State} (h : edge τ p s = .next t)
    (hr : p.rst = false) :
    ∃ u, u.rspValid = (takeResponse p s).rspValid ∧ u.rspR = s.rspR ∧ t = offerResponse τ u := by
  obtain ⟨-, ⟨hrst, -⟩ | ⟨-, -, -, u, hu, rfl⟩ | ⟨-, -, rfl⟩⟩ := edge_next_iff.1 h
  · rw [hr] at hrst
    cases hrst
  · obtain ⟨w, -, rfl⟩ := acceptRequest_accepts hu
    exact ⟨_, by simp, by simp, rfl⟩
  · exact ⟨_, by simp, by simp, rfl⟩

/-- An offered response that the host does not take stays through an edge without reset (rule R36). -/
theorem edge_keeps_offered {τ : Timing} {p : Pins} {s t : State} (h : edge τ p s = .next t) (hv : s.rspValid = true)
    (hr : p.rst = false) (hready : p.rspReady = false) : t.rspValid = true ∧ t.rspR = s.rspR := by
  have hkeep : takeResponse p s = s := takeResponse_of_not_taken p s (by simp [hready])
  obtain ⟨u, huv, hur, rfl⟩ := edge_offers_of_not_reset h hr
  rw [hkeep, hv] at huv
  rw [offerResponse_of_offered τ huv]
  exact ⟨huv, hur⟩

/-- The word offered is the response to the oldest request in flight (rules R36, R39). -/
theorem Inv.offered_response {s : State} (hs : Inv s) (hv : s.rspValid = true) :
    ∃ t ts, s.inflight = t :: ts ∧ response s.rom t.req = .ok s.rspR := by
  obtain ⟨t, ts, hi, hw⟩ := hs.offered hv
  have hmem : t ∈ s.inflight := by simp [hi]
  exact ⟨t, ts, hi, hw ▸ hs.answered t hmem⟩

/-- Settles O11: the invariant ties the offered word to the oldest request, and no part of an edge but reset and taking
the response withdraws it. -/
theorem offeredResponseIsTheOldestAndStays : Obligations.OfferedResponseIsTheOldestAndStays :=
  ⟨fun _ => Inv.offered_response, fun _ _ => edge_keeps_offered⟩

end Sys2Proof.Machine


/-! # Proofs: the codes of the operations (family 30_encoding, rules R81, R82) -/

namespace Sys2Proof.Machine

/-! ## Encoding -/

theorem roundTrip : ∀ i : Instr, Laws.RoundTrip.Statement i
  | .sinp a b => Laws.RoundTrip.sinp a b
  | .cosp a b => Laws.RoundTrip.cosp a b
  | .sinlut a b => Laws.RoundTrip.sinlut a b
  | .coslut a b => Laws.RoundTrip.coslut a b
  | .atan a b => Laws.RoundTrip.atan a b
  | .atan2 a b => Laws.RoundTrip.atan2 a b
  | .atan2v2 a b => Laws.RoundTrip.atan2v2 a b
  | .isqrt a b => Laws.RoundTrip.isqrt a b
  | .invsqrt a b => Laws.RoundTrip.invsqrt a b
  | .invsqrtv2 a b => Laws.RoundTrip.invsqrtv2 a b
  | .mul a b => Laws.RoundTrip.mul a b

@[simp] theorem decode_encode (i : Instr) : decode (encode i) = .ok i := (roundTrip i).2.2

theorem encode_op_le (i : Instr) : (encode i).op.toNat ≤ 10 :=
  Nat.le_of_lt_succ (of_decide_eq_true (roundTrip i).2.1)

/-- The operations stand in the order of their codes, so a code fixes the constructor (rule R82). -/
theorem encode_op_toNat (i : Instr) : (encode i).op.toNat = i.ctorIdx := by
  cases i <;> rfl

/-! ## Decoding -/

theorem decode_eq_ok_iff {r : Request} {i : Instr} : decode r = .ok i ↔ encode i = r :=
  ⟨encode_of_decode, fun h => h ▸ decode_encode i⟩

/-- Each of the codes 0 to 10 has its arm in the decoder (rule R82). -/
theorem decode_of_le {r : Request} (h : r.op.toNat ≤ 10) : ∃ i, decode r = .ok i := by
  unfold decode
  interval_cases r.op.toNat <;> exact ⟨_, rfl⟩

/-- The codes 11 to 15 fall to the decoder's last arm (rule R84). -/
theorem decode_of_reserved {r : Request} (h : 10 < r.op.toNat) : decode r = .error (.reservedOp r.op) := by
  unfold decode
  split
  case h_12 => rfl
  all_goals omega

theorem exists_decode_iff {r : Request} : (∃ i, decode r = .ok i) ↔ r.op.toNat ≤ 10 :=
  ⟨fun ⟨i, h⟩ => encode_of_decode h ▸ encode_op_le i, decode_of_le⟩

theorem decode_eq_error_iff {r : Request} {e : DecodeReject} :
    decode r = .error e ↔ 10 < r.op.toNat ∧ e = .reservedOp r.op := by
  rcases Nat.lt_or_ge 10 r.op.toNat with hlt | hle
  · simp [decode_of_reserved hlt, hlt, eq_comm]
  · obtain ⟨i, hi⟩ := decode_of_le hle
    simp [hi, Nat.not_lt.2 hle]

/-- Settles O3: each code decodes by its own arm, and decoding and encoding are inverse to each other. -/
theorem opCodesSelectOneOperation : Obligations.OpCodesSelectOneOperation :=
  ⟨fun _ _ => ⟨rfl, rfl, rfl, rfl, rfl, rfl, rfl, rfl, rfl, rfl, rfl⟩,
    fun _ => exists_decode_iff, fun _ _ => decode_eq_ok_iff⟩

/-- Settles O4: the code alone says whether a request decodes, and it is the number of the constructor. -/
theorem opAloneSelectsTheOperation : Obligations.OpAloneSelectsTheOperation := by
  intro r r' hop
  constructor
  · intro i hi
    have hcode : r'.op.toNat ≤ 10 := hop ▸ exists_decode_iff.1 ⟨i, hi⟩
    obtain ⟨i', hi'⟩ := exists_decode_iff.2 hcode
    have hsame : (encode i').op = (encode i).op := by
      rw [encode_of_decode hi', encode_of_decode hi, hop]
    refine ⟨i', hi', hsame, ?_⟩
    rw [← encode_op_toNat, ← encode_op_toNat, hsame]
  · intro e he
    rwa [decode_eq_error_iff, ← hop, ← decode_eq_error_iff]

end Sys2Proof.Machine


/-! # Proofs: SINP and COSP (family 40_trig_poly, rules R100 to R103) -/

namespace Sys2Proof.Machine

/-! ## What the two operations answer: acceptance of the request, so the frame is that of `accept` -/

theorem exec_sinp (a b : Word) (s : State) : exec (.sinp a b) s = .next (accept ⟨0, a, b⟩ (sinpWord a) s) :=
  answer_ok _ _ _

theorem exec_cosp (a b : Word) (s : State) : exec (.cosp a b) s = .next (accept ⟨1, a, b⟩ (cospWord a) s) :=
  answer_ok _ _ _

/-! ## The steps of the response words, with the encodings of rule R17 for the constants' names -/

/-- Rule R102. -/
theorem fold_eq (t : F32) :
    fold t = fmul (fsub t (fmul t (fabs t)))
      (fadd (f32 0x40466666#32) (fmul (f32 0x40666666#32) (fabs (fsub t (fmul t (fabs t)))))) := rfl

/-- Rule R103. -/
theorem wrap_eq (t : F32) :
    wrap t = fsub t (fsub (fadd t (f32 0x4BC00000#32)) (f32 0x4BC00000#32)) := rfl

/-- Rule R100. -/
theorem sinpWord_eq (a : Word) : sinpWord a = bits (fold (fmul (f32 a) (f32 0x3EA2F983#32))) := rfl

/-- Rule R101. -/
theorem cospWord_eq (a : Word) :
    cospWord a = bits (fold (wrap (fadd (fmul (f32 a) (f32 0x3EA2F983#32)) (f32 0x3F000000#32)))) := rfl

/-- Settles O27: SINP only accepts its request, with the fold of the scaled operand. -/
theorem sinpResult : Obligations.SinpResult := by
  intro a b s
  simp only [exec_sinp, accept, sinpWord_eq, fold_eq]

/-- Settles O28: COSP only accepts its request, with the fold of the wrap of the scaled and shifted operand. -/
theorem cospResult : Obligations.CospResult := by
  intro a b s
  simp only [exec_cosp, accept, cospWord_eq, wrap_eq, fold_eq]

end Sys2Proof.Machine


/-! # Proofs: SINLUT and COSLUT (family 41_trig_lut, rules R122, R125, R126) -/

namespace Sys2Proof.Machine

/-! ## Signed 16-bit values are residues modulo 2^16, balanced around 0 (rule R8) -/

theorem opS16_eq_bmod (w : Word) : opS16 w = (w.toNat : Int).bmod (2 ^ 16) :=
  BitVec.toInt_ofNat' w.toNat

theorem wrap16_eq_bmod (v : Int) : wrap16 v = v.bmod (2 ^ 16) := by
  rw [Int.bmod_def, wrap16]
  split <;> omega

/-- The shifted angle may be formed from the whole operand word, since only its residue counts (rule R126). -/
theorem wrap16_shift_eq_opS16 {a a' : Word} (h : (a'.toNat % 2 ^ 16 : Int) = (900 - (a.toNat : Int)) % 2 ^ 16) :
    wrap16 (900 - opS16 a) = opS16 a' := by
  calc wrap16 (900 - opS16 a) = (900 - (a.toNat : Int)).bmod (2 ^ 16) := by
        rw [wrap16_eq_bmod, opS16_eq_bmod, Int.sub_bmod_bmod]
    _ = ((900 - (a.toNat : Int)) % (2 ^ 16 : Nat)).bmod (2 ^ 16) := (Int.emod_bmod ..).symm
    _ = ((a'.toNat : Int) % (2 ^ 16 : Nat)).bmod (2 ^ 16) := congrArg (Int.bmod · (2 ^ 16)) h.symm
    _ = opS16 a' := by rw [Int.emod_bmod, opS16_eq_bmod]

/-! ## The steps of `SLUT` (rule R122) -/

theorem lutMagnitude_eq (angle : Int) : lutMagnitude angle = angle.natAbs % 3600 := by
  unfold lutMagnitude
  dsimp only
  split <;> omega

/-- The fold's sign and angle in each quadrant; the sign is given as -1 or 1. -/
theorem lutFold_of_quadrant {u v : Nat} {n : Int}
    (h : (u ≤ 900 ∧ n = 1 ∧ v = u) ∨ (900 < u ∧ u ≤ 1800 ∧ n = 1 ∧ v = 1800 - u) ∨
      (1800 < u ∧ u ≤ 2700 ∧ n = -1 ∧ v = u - 1800) ∨ (2700 < u ∧ n = -1 ∧ v = 3600 - u)) :
    withSign (lutFold u).1 1 = n ∧ (lutFold u).2 = v := by
  unfold lutFold
  -- Each branch of the fold is one quadrant, and its bounds on `u` exclude the other three cases of `h`.
  split_ifs <;> simp only [withSign, if_true, Bool.false_eq_true, if_false] <;> omega

/-- A folded angle indexes no entry past the last one (rule R127). -/
theorem lutFold_le {u : Nat} (h : u < 3600) : (lutFold u).2 ≤ 900 := by
  unfold lutFold
  split_ifs <;> dsimp only <;> omega

theorem withSign_xor (s t : Bool) (v : Nat) : withSign (s ^^ t) v = withSign s 1 * withSign t 1 * v := by
  cases s <;> cases t <;> simp [withSign]

/-- Over a table of rule R121 every angle has a table sine: the fold keeps the index inside the table. -/
theorem slut_of_wf {rom : Memory} (h : Memory.wf rom = true) (angle : Int) :
    slut rom angle = .ok (
      let q := lutFold (angle.natAbs % 3600)
      let s := decide (angle < 0) ^^ q.1
      if q.2 < 105 then fmul (i2f (withSign s q.2)) (f32 Config.pi1800)
      else fdiv (i2f (withSign s (rom.getD (q.2 / 10) 0).toNat)) (f32 Config.k1000)) := by
  have hle : (lutFold (angle.natAbs % 3600)).2 ≤ 900 := lutFold_le (Nat.mod_lt _ (by decide))
  have hread := romRead_of_wf h (i := (lutFold (angle.natAbs % 3600)).2 / 10) (by omega)
  simp only [slut, lutMagnitude_eq, hread]
  split <;> rfl

/-! ## The two operations -/

theorem sinlutWord_of_slut {rom : Memory} {a : Word} {f : F32} (h : slut rom (opS16 a) = .ok f) :
    sinlutWord rom a = .ok (bits f) := by
  rw [sinlutWord, h]
  rfl

/-- Equal angles have equal table sines, whichever operation computes them. -/
theorem coslutWord_eq_sinlutWord {rom : Memory} {a a' : Word} (h : wrap16 (900 - opS16 a) = opS16 a') :
    coslutWord rom a = sinlutWord rom a' := by
  rw [coslutWord, h, sinlutWord]

theorem exec_sinlut {a b w : Word} {s : State} (h : sinlutWord s.rom a = .ok w) :
    exec (.sinlut a b) s = .next (accept ⟨2, a, b⟩ w s) :=
  exec_next_iff.2 ⟨w, h, (acceptWith_none ..).symm⟩

theorem exec_coslut {a b w : Word} {s : State} (h : coslutWord s.rom a = .ok w) :
    exec (.coslut a b) s = .next (accept ⟨3, a, b⟩ w s) :=
  exec_next_iff.2 ⟨w, h, (acceptWith_none ..).symm⟩

/-- Settles O31: the fold is that of the angle's quadrant, and the signs of angle and quadrant multiply. -/
theorem sinlutResult : Obligations.SinlutResult := by
  intro a b s hwf angle hangle u v n hu hquadrant
  obtain ⟨hn, hv⟩ := lutFold_of_quadrant hquadrant
  have hS16 : opS16 a = angle := by rw [hangle, BitVec.toInt_ofNat', opS16_eq_bmod]
  have hsign : withSign (decide (angle < 0)) 1 = if angle < 0 then -1 else 1 := by simp [withSign]
  have hslut := slut_of_wf hwf angle
  simp only [withSign_xor, ← hu, hn, hv, hsign] at hslut
  exact exec_sinlut (sinlutWord_of_slut (hS16 ▸ hslut))

/-- Settles O32: both operations take the table sine of the same angle, which a table of rule R121 always has. -/
theorem coslutResult : Obligations.CoslutResult := by
  intro a b a' b' s hwf hshift
  have hsin := sinlutWord_of_slut (slut_of_wf hwf (opS16 a'))
  have hcos := (coslutWord_eq_sinlutWord (wrap16_shift_eq_opS16 hshift)).trans hsin
  exact ⟨_, exec_coslut hcos, exec_sinlut hsin⟩

end Sys2Proof.Machine


/-! # Proofs: ATAN (family 42_arctan, rule R150) -/

namespace Sys2Proof.Machine

/-! ## The fields of a word made of a sign bit and 31 others (rule R10) -/

section
variable (neg : Bool) (low : Nat)

theorem signed31_eq_append :
    signed31 neg low = BitVec.ofBool neg ++ (BitVec.ofNat 8 (low / 2 ^ 23) ++ BitVec.ofNat 23 low) := by
  have hlow : BitVec.ofNat 31 low = BitVec.ofNat 8 (low / 2 ^ 23) ++ BitVec.ofNat 23 low := by
    apply BitVec.eq_of_toNat_eq
    rw [BitVec.toNat_append, ← Nat.shiftLeft_add_eq_or_of_lt (BitVec.isLt _)]
    simp only [BitVec.toNat_ofNat, Nat.shiftLeft_eq]
    omega
  rw [signed31, hlow]

theorem signed31_sign : (signed31 neg low).getLsbD 31 = neg := by
  rw [signed31, BitVec.getLsbD_append]
  cases neg <;> rfl

theorem signed31_exponent : (signed31 neg low).extractLsb' 23 8 = BitVec.ofNat 8 (low / 2 ^ 23) := by
  rw [signed31_eq_append, exponent_of_append]

theorem signed31_fraction : (signed31 neg low).extractLsb' 0 23 = BitVec.ofNat 23 low := by
  rw [signed31_eq_append, fraction_of_append]

end

/-! ## A result of a division is the datum of its own encoding (rules R10, R12, R14) -/

theorem f32_bits_nanF : f32 (bits nanF) = nanF := f32_nanResult

theorem f32_bits_inf (neg : Bool) : f32 (bits (.inf neg)) = .inf neg := by
  have hexp : ((signed31 neg 0x7F800000).extractLsb' 23 8).toNat = 255 := by
    rw [signed31_exponent]
    rfl
  have hfrac : ((signed31 neg 0x7F800000).extractLsb' 0 23).toNat = 0 := by
    rw [signed31_fraction]
    rfl
  rw [bits, f32_of_infinity hexp hfrac, signed31_sign]

theorem f32_bits_fin (neg : Bool) {k : Nat} (hk : IsMag k) : f32 (bits (.fin neg k)) = .fin neg k := by
  obtain ⟨m, e, hm, he, hme, rfl⟩ := hk
  have hexp : ((signed31 neg (e * 2 ^ 23 + m)).extractLsb' 23 8).toNat = (e * 2 ^ 23 + m) / 2 ^ 23 := by
    rw [signed31_exponent, BitVec.toNat_ofNat]
    omega
  have hfrac : ((signed31 neg (e * 2 ^ 23 + m)).extractLsb' 0 23).toNat = m % 2 ^ 23 := by
    rw [signed31_fraction, BitVec.toNat_ofNat]
    omega
  rw [bits, magBits_of_significand hm hme]
  rcases Nat.lt_or_ge m (2 ^ 23) with hlt | hge
  · obtain rfl : e = 0 := by omega
    rw [f32_of_subnormal (by omega), signed31_sign, hfrac, Nat.mod_eq_of_lt hlt, Nat.pow_zero, Nat.mul_one]
  · rw [f32_of_normal (by omega) (by omega), signed31_sign, hexp, hfrac,
      show 2 ^ 23 + m % 2 ^ 23 = m by omega, show (e * 2 ^ 23 + m) / 2 ^ 23 - 1 = e by omega]

theorem f32_bits_roundF (neg : Bool) {n d : Nat} (hd : 0 < d) : f32 (bits (roundF neg n d)) = roundF neg n d := by
  rcases roundF_cases neg n d with ⟨r, hr, h⟩ | ⟨-, h⟩
  · rw [h, f32_bits_fin neg (roundMag_isMag hd hr)]
  · rw [h, f32_bits_inf]

theorem isMag_zero : IsMag 0 := ⟨0, 0, by norm_num, by norm_num, .inl rfl, (Nat.zero_mul _).symm⟩

theorem f32_bits_fdiv (p q : F32) : f32 (bits (fdiv p q)) = fdiv p q := by
  fun_cases fdiv p q
  case case1 | case2 | case3 | case6 => exact f32_bits_nanF
  case case4 | case7 => exact f32_bits_inf _
  case case5 => exact f32_bits_fin _ isMag_zero
  case case8 hk => exact f32_bits_roundF _ (Nat.pos_of_ne_zero hk)

/-! ## Joining a sign bit to an encoding (rule R150) -/

theorem and_signBit (a : Word) : a &&& 0x80000000#32 = signed31 (a.getLsbD 31) 0 := by
  rw [show (0x80000000#32) = BitVec.twoPow 32 31 from rfl, BitVec.and_twoPow]
  cases a.getLsbD 31 <;> rfl

/-- The joined bit leaves exponent and fraction, so each class of data is kept. -/
theorem f32_or_sign (w : Word) (neg : Bool) : f32 (w ||| signed31 neg 0) = forSign neg (f32 w) := by
  have hs : (w ||| signed31 neg 0).getLsbD 31 = (w.getLsbD 31 || neg) := by
    rw [BitVec.getLsbD_or, signed31_sign]
  have he : (w ||| signed31 neg 0).extractLsb' 23 8 = w.extractLsb' 23 8 := by
    rw [BitVec.extractLsb'_or, signed31_exponent]
    exact BitVec.or_zero
  have hf : (w ||| signed31 neg 0).extractLsb' 0 23 = w.extractLsb' 0 23 := by
    rw [BitVec.extractLsb'_or, signed31_fraction]
    exact BitVec.or_zero
  by_cases h255 : (w.extractLsb' 23 8).toNat = 255
  · by_cases h0 : (w.extractLsb' 0 23).toNat = 0
    · rw [f32_of_infinity h255 h0, f32_of_infinity (by rw [he, h255]) (by rw [hf, h0]), hs, forSign]
    · rw [f32_of_nan h255 h0, f32_of_nan (by rw [he, h255]) (by rwa [hf]), forSign]
  · by_cases h0 : (w.extractLsb' 23 8).toNat = 0
    · rw [f32_of_subnormal h0, f32_of_subnormal (by rw [he, h0]), hs, hf, forSign]
    · rw [f32_of_normal h0 h255, f32_of_normal (by rwa [he]) (by rwa [he]), hs, he, hf, forSign]

/-! ## The operation accepts its request, so the frame is that of `accept` -/

theorem exec_atan (a b : Word) (s : State) : exec (.atan a b) s = .next (accept ⟨4, a, b⟩ (atanWord a) s) :=
  answer_ok _ _ _

/-- Settles O35: the quotient is the datum of its own encoding, so joining the operand's sign bit to that encoding is
giving the quotient that sign. -/
theorem atanResult : Obligations.AtanResult := by
  intro a b s bx num q qs
  have hqs : qs = forSign (a.getLsbD 31) q := by
    calc qs = f32 (bits q ||| signed31 (a.getLsbD 31) 0) := by rw [← and_signBit]
      _ = forSign (a.getLsbD 31) (f32 (bits q)) := f32_or_sign ..
      _ = forSign (a.getLsbD 31) q := by rw [f32_bits_fdiv]
  rw [exec_atan, hqs]
  rfl

end Sys2Proof.Machine


/-! # Proofs: MUL (family 44_multiply, rules R220 and R222) -/

namespace Sys2Proof.Machine

theorem exec_mul (a b : Word) (s : State) : exec (.mul a b) s = .next (accept ⟨10, a, b⟩ (mulWord a b) s) :=
  answer_ok _ _ _

theorem mulWord_comm (a b : Word) : mulWord a b = mulWord b a :=
  congrArg resProduct (Int.mul_comm ..)

/-- Rule R222: the product of two signed 16-bit values is at most 2^30 in magnitude, so the 32-bit word holds it. -/
theorem mulWord_toInt (a b : Word) : (mulWord a b).toInt = opS16 a * opS16 b := by
  have hlow : -2 ^ 30 ≤ opS16 a * opS16 b := BitVec.le_toInt_mul_toInt
  have hhigh : opS16 a * opS16 b ≤ 2 ^ 30 := BitVec.toInt_mul_toInt_le
  exact BitVec.toInt_ofInt_eq_self (by decide) (by omega) (by omega)

/-- The operand form S16 reads the low half of its word alone (rule R83). -/
theorem opS16_eq_ofNat_toInt (w : Word) : opS16 w = (BitVec.ofNat 16 w.toNat).toInt := by
  rw [opS16_eq_bmod, BitVec.toInt_ofNat']

/-- Settles O49: MUL only accepts its request, with a word wide enough for the product; the product commutes. -/
theorem mulIsTheExactProduct : Obligations.MulIsTheExactProduct := by
  intro a b s
  refine ⟨mulWord a b, ?product, exec_mul a b s, congrArg Except.ok (mulWord_comm b a)⟩
  case product => rw [mulWord_toInt, opS16_eq_ofNat_toInt, opS16_eq_ofNat_toInt]

end Sys2Proof.Machine


/-! # Proofs: rounding and the four operations (family 00_scope, rules R10 to R13) -/

namespace Sys2Proof.Machine

/-! ## Where the rounding overflows (rule R12) -/

theorem binade_le_iff {q e : Nat} : binade q ≤ e ↔ q < 2 ^ (24 + e) := by
  constructor
  · intro h
    exact (lt_two_pow_binade q).trans_le (Nat.pow_le_pow_right (by norm_num) (by omega))
  · intro h
    by_contra hlt
    have hpow : 2 ^ (24 + e) ≤ 2 ^ (23 + binade q) := Nat.pow_le_pow_right (by norm_num) (by omega)
    exact Nat.not_lt.2 (hpow.trans (two_pow_binade_le (by omega))) h

/-- A quotient rounds up past an odd number exactly from the half above it on. -/
theorem succ_le_divEven_iff {n d k : Nat} (hd : 0 < d) (hk : k % 2 = 1) :
    k + 1 ≤ divEven n d ↔ (2 * k + 1) * d ≤ 2 * n := by
  have hn := Nat.div_add_mod' n d
  have hr := Nat.mod_lt n hd
  have hcases := divEven_cases n d
  have hbeside := multiple_beside k (n / d) d
  rw [Nat.add_mul, Nat.mul_assoc, Nat.one_mul]
  generalize divEven n d = j at *
  generalize n % d = r at *
  generalize n / d = q at *
  have hnext : (q + 1) * d = q * d + d := Nat.succ_mul ..
  rcases hbeside with h | rfl | rfl | h <;> omega

theorem roundMag_eq_none_iff {n d : Nat} :
    roundMag n d = none ↔
      253 < binade (n / d) ∨ (binade (n / d) = 253 ∧ divEven n (d * 2 ^ binade (n / d)) = 2 ^ 24) := by
  unfold roundMag
  dsimp only
  split_ifs with hbeyond hcarry
  · exact iff_of_true rfl (.inl hbeyond)
  · exact iff_of_true rfl (.inr hcarry)
  · exact iff_of_false nofun (not_or_intro hbeyond hcarry)

/-- The rounding overflows from halfway above the largest finite magnitude on (rules R11, R12). -/
theorem roundMag_overflow_iff {n d : Nat} (hd : 0 < d) :
    roundMag n d = none ↔ (2 ^ 25 - 1) * 2 ^ 252 * d ≤ n := by
  have hbeyond : 253 < binade (n / d) ↔ 2 ^ (24 + 253) * d ≤ n := by
    rw [← Nat.not_le, binade_le_iff, Nat.not_lt, Nat.le_div_iff_mul_le hd]
  have hlast : 252 < binade (n / d) ↔ 2 ^ (24 + 252) * d ≤ n := by
    rw [← Nat.not_le, binade_le_iff, Nat.not_lt, Nat.le_div_iff_mul_le hd]
  have hhalf := succ_le_divEven_iff (n := n) (k := 2 ^ 24 - 1) (show 0 < d * 2 ^ 253 by positivity) (by norm_num)
  have hle := (divEven_significand (n := n) hd).1
  rw [roundMag_eq_none_iff]
  by_cases hb : binade (n / d) = 253
  · rw [hb] at hle ⊢
    omega
  · omega

/-- Settles O51: the significand is divided to the nearest, and the last binade ends at the halfway point. -/
theorem roundingIsNearestTiesToEven : Obligations.RoundingIsNearestTiesToEven :=
  fun _ _ hd => ⟨fun _ => roundMag_nearestEven hd, roundMag_overflow_iff hd⟩

/-! ## The fields of a word as numbers (rule R10) -/

section
variable (w : Word)

theorem sign_eq : w.getLsbD 31 = decide (2 ^ 31 ≤ w.toNat) := BitVec.msb_eq_decide w

theorem exponent_toNat : (w.extractLsb' 23 8).toNat = w.toNat / 2 ^ 23 % 2 ^ 8 := by
  rw [BitVec.extractLsb'_toNat, Nat.shiftRight_eq_div_pow]

theorem fraction_toNat : (w.extractLsb' 0 23).toNat = w.toNat % 2 ^ 23 := by
  rw [BitVec.extractLsb'_toNat, Nat.shiftRight_zero]

end

/-- A word below the infinities, but for its sign, encodes a finite datum: its other 31 bits are the significand running
on into the exponent field. -/
theorem f32_of_finite {w : Word} (h : w.toNat % 2 ^ 31 < 0x7F800000) :
    ∃ m e, m < 2 ^ 24 ∧ e ≤ 253 ∧ (e = 0 ∨ 2 ^ 23 ≤ m) ∧ w.toNat % 2 ^ 31 = e * 2 ^ 23 + m ∧
      f32 w = .fin (w.getLsbD 31) (m * 2 ^ e) := by
  have hexp := exponent_toNat w
  have hfrac := fraction_toNat w
  by_cases h0 : (w.extractLsb' 23 8).toNat = 0
  · refine ⟨w.toNat % 2 ^ 23, 0, by omega, by omega, .inl rfl, by omega, ?_⟩
    rw [f32_of_subnormal h0, hfrac, Nat.pow_zero, Nat.mul_one]
  · refine ⟨2 ^ 23 + w.toNat % 2 ^ 23, w.toNat / 2 ^ 23 % 2 ^ 8 - 1, by omega, by omega, .inr (by omega), by omega,
      ?_⟩
    rw [f32_of_normal h0 (by omega), hfrac, hexp]

/-- A word whose exponent field is all ones encodes an infinity or a NaN. -/
theorem f32_of_not_finite {w : Word} (h : 0x7F800000 ≤ w.toNat % 2 ^ 31) :
    f32 w = .inf (w.getLsbD 31) ∧ w.toNat % 2 ^ 31 = 0x7F800000 ∨ f32 w = .nan w := by
  have hexp := exponent_toNat w
  have hfrac := fraction_toNat w
  have h255 : (w.extractLsb' 23 8).toNat = 255 := by omega
  by_cases h0 : (w.extractLsb' 0 23).toNat = 0
  · exact .inl ⟨f32_of_infinity h255 h0, by omega⟩
  · exact .inr (f32_of_nan h255 h0)

/-! ## Every encoding reads back (rules R10, R18) -/

/-- A word is its sign bit before its other 31 bits. -/
theorem signed31_of_word {w : Word} {low : Nat} (h : w.toNat % 2 ^ 31 = low) : signed31 (w.getLsbD 31) low = w := by
  apply BitVec.eq_of_toNat_eq
  rw [signed31, BitVec.toNat_append, ← Nat.shiftLeft_add_eq_or_of_lt (BitVec.isLt _), Nat.shiftLeft_eq, sign_eq,
    BitVec.toNat_ofBool, BitVec.toNat_ofNat]
  rcases Nat.lt_or_ge w.toNat (2 ^ 31) with hlt | hge
  · simp only [Nat.not_le.2 hlt, decide_false, Bool.toNat_false]
    omega
  · simp only [hge, decide_true, Bool.toNat_true]
    omega

/-- Settles O50: a finite datum's encoding runs the significand on into the exponent field, as the word does. -/
theorem encodingReadsBack : Obligations.EncodingReadsBack := by
  intro w
  rcases Nat.lt_or_ge (w.toNat % 2 ^ 31) 0x7F800000 with hfin | hnot
  · obtain ⟨m, e, hm, -, hme, hw, hf⟩ := f32_of_finite hfin
    rw [hf, bits, magBits_of_significand hm hme, signed31_of_word hw]
  · rcases f32_of_not_finite hnot with ⟨hf, hw⟩ | hf
    · rw [hf, bits, signed31_of_word hw]
    · rw [hf, bits]

/-! ## The exact signed results (rules R11, R12) -/

section
variable (s : Bool) (m k : Nat)

@[simp] theorem withSign_natAbs : (withSign s m).natAbs = m := by
  cases s <;> simp [withSign]

@[simp] theorem withSign_eq_zero_iff : withSign s m = 0 ↔ m = 0 := by
  cases s <;> simp [withSign]

theorem withSign_not : withSign (!s) m = -withSign s m := by
  cases s <;> simp [withSign]

theorem withSign_add : withSign s m + withSign s k = withSign s (m + k) := by
  cases s
  · simp [withSign]
  · simp [withSign]
    omega

theorem withSign_sub {m k : Nat} (h : k ≤ m) : withSign s m - withSign s k = withSign s (m - k) := by
  cases s <;> (simp [withSign]; omega)

theorem decide_withSign_neg {m : Nat} (h : m ≠ 0) : decide (withSign s m < 0) = s := by
  cases s <;> simp [withSign, Nat.pos_iff_ne_zero, h]

end

/-- A number is its magnitude under its sign. -/
theorem withSign_decide_neg (x : Int) : withSign (decide (x < 0)) x.natAbs = x := by
  unfold withSign
  split_ifs with h <;> simp only [decide_eq_true_eq] at h <;> omega

theorem roundF_zero (neg : Bool) {d : Nat} (hd : 0 < d) : roundF neg 0 d = .fin neg 0 := by
  have h := roundMag_exact hd isMag_zero
  rw [Nat.zero_mul] at h
  exact roundF_of_roundMag h

theorem roundF_of_overflow {neg : Bool} {n d : Nat} (h : roundMag n d = none) : roundF neg n d = .inf neg := by
  unfold roundF
  rw [h]

/-- An exact sum rounded once, with its own sign (rule R11). -/
def roundSum (x : Int) : F32 := roundF (decide (x < 0)) x.natAbs 1

theorem roundSum_withSign (s : Bool) {m : Nat} (h : m ≠ 0) : roundSum (withSign s m) = roundF s m 1 := by
  rw [roundSum, decide_withSign_neg s h, withSign_natAbs]

/-- Addition of finite operands rounds the exact signed sum; a zero sum is -0 for two negative zeros alone. -/
theorem fadd_signed (s t : Bool) (m k : Nat) :
    fadd (.fin s m) (.fin t k) =
      if withSign s m + withSign t k = 0 then .fin (s && t) 0 else roundSum (withSign s m + withSign t k) := by
  rw [fadd_fin]
  by_cases hst : s = t
  · subst hst
    rw [if_pos rfl, withSign_add, Bool.and_self]
    split_ifs with h0 <;> rw [withSign_eq_zero_iff] at h0
    · rw [h0, roundF_zero s Nat.one_pos]
    · rw [roundSum_withSign s h0]
  · obtain rfl : t = !s := by cases s <;> cases t <;> simp_all
    rw [if_neg hst, withSign_not, ← sub_eq_add_neg, Bool.and_not_self]
    rcases Nat.lt_trichotomy m k with h | rfl | h
    · rw [if_neg h.ne, if_neg (Nat.not_lt.2 h.le), ← neg_sub, withSign_sub s h.le, ← withSign_not,
        if_neg (by rw [withSign_eq_zero_iff]; omega), roundSum_withSign _ (by omega)]
    · rw [if_pos rfl, sub_self, if_pos rfl]
    · rw [if_neg h.ne', if_pos h, withSign_sub s h.le, if_neg (by rw [withSign_eq_zero_iff]; omega),
        roundSum_withSign _ (by omega)]

/-- Subtraction of finite operands rounds the exact signed difference (log entry 17). -/
theorem fsub_signed (s t : Bool) (m k : Nat) :
    fsub (.fin s m) (.fin t k) =
      if withSign s m - withSign t k = 0 then .fin (s && !t) 0 else roundSum (withSign s m - withSign t k) := by
  rw [fsub_fin, fadd_signed, withSign_not, ← sub_eq_add_neg]

/-- Settles O52: sums and differences by their exact signed value; products and quotients round by definition. -/
theorem arithmeticRoundsTheExactResult : Obligations.ArithmeticRoundsTheExactResult := by
  have hunit : (2 ^ 149 : Nat) = unitsPerOne := by rw [unitsPerOne]
  intro s t m k x y
  have hx : withSign s m = x := rfl
  have hy : withSign t k = y := rfl
  rw [hunit]
  refine ⟨?sum, ?difference, ?product, fun hk => ?quotient⟩
  case sum =>
    rw [fadd_signed, hx, hy, roundSum]
    rcases roundF_cases (decide (x + y < 0)) (x + y).natAbs 1 with ⟨r, hr, h⟩ | ⟨hr, h⟩ <;> rw [h, hr]
  case difference =>
    rw [fsub_signed, hx, hy, roundSum]
    rcases roundF_cases (decide (x - y < 0)) (x - y).natAbs 1 with ⟨r, hr, h⟩ | ⟨hr, h⟩ <;> rw [h, hr]
  case product =>
    rw [fmul_fin]
    rcases roundF_cases (s ^^ t) (m * k) unitsPerOne with ⟨r, hr, h⟩ | ⟨hr, h⟩ <;> rw [h, hr]
  case quotient =>
    rw [fdiv_fin s t m hk]
    rcases roundF_cases (s ^^ t) (m * unitsPerOne) k with ⟨r, hr, h⟩ | ⟨hr, h⟩ <;> rw [h, hr]

/-! ## Special cases (rule R12) -/

theorem roundF_fin_or_inf (neg : Bool) (n d : Nat) :
    (∃ r, roundF neg n d = .fin neg r) ∨ roundF neg n d = .inf neg :=
  (roundF_cases neg n d).imp (fun ⟨r, _, h⟩ => ⟨r, h⟩) And.right

section
variable (w : Word) (f : F32)
@[simp] theorem fadd_nan_left : fadd (.nan w) f = nanF := rfl
@[simp] theorem fadd_nan_right : fadd f (.nan w) = nanF := by cases f <;> rfl
@[simp] theorem fsub_nan_left : fsub (.nan w) f = nanF := rfl
@[simp] theorem fsub_nan_right : fsub f (.nan w) = nanF := fadd_nan_right w f
@[simp] theorem fmul_nan_left : fmul (.nan w) f = nanF := rfl
@[simp] theorem fmul_nan_right : fmul f (.nan w) = nanF := by cases f <;> rfl
@[simp] theorem fdiv_nan_left : fdiv (.nan w) f = nanF := rfl
@[simp] theorem fdiv_nan_right : fdiv f (.nan w) = nanF := by cases f <;> rfl
end

theorem fsub_self_inf (s : Bool) : fsub (.inf s) (.inf s) = nanF := by cases s <;> rfl

theorem fdiv_zero (s t : Bool) {m : Nat} (h : m ≠ 0) : fdiv (.fin s m) (.fin t 0) = .inf (s ^^ t) := by
  simp [fdiv, h]

/-- Settles O53: the operand classes of each clause select one arm of the operation. -/
theorem specialCasesFollowIeee : Obligations.SpecialCasesFollowIeee := by
  refine ⟨fun w f => by simp, fun s t => ⟨fsub_self_inf s, rfl, rfl, rfl, rfl⟩,
    fun s t m hm => fdiv_zero s t hm.ne', fun _ _ _ => rfl, fun s t m k => ?_, fun s t m k hk => ?_, fun s m => ?_,
    ?_⟩
  · rw [fmul_fin]
    exact roundF_fin_or_inf ..
  · rw [fdiv_fin s t m hk]
    exact roundF_fin_or_inf ..
  · simp [fadd_signed, fsub_signed, withSign_not]
  · simp [fadd_signed, withSign]

end Sys2Proof.Machine


/-! # Proofs: how a rounded magnitude lies to the exact one (family 00_scope, rule R11) -/

namespace Sys2Proof.Machine

/-! ## Representable magnitudes -/

/-- A significand short of 24 bits may be shifted up until it fills them or the exponent is used up. -/
theorem isMag_of_lt {i e : Nat} (hi : i < 2 ^ 24) (he : e ≤ 253) : IsMag (i * 2 ^ e) := by
  induction e generalizing i with
  | zero => exact ⟨i, 0, hi, by omega, .inl rfl, rfl⟩
  | succ e ih =>
    rcases Nat.lt_or_ge i (2 ^ 23) with hlt | hge
    · rw [show i * 2 ^ (e + 1) = 2 * i * 2 ^ e by rw [Nat.pow_succ]; ring]
      exact ih (by omega) (by omega)
    · exact ⟨i, e + 1, hi, he, .inr hge, rfl⟩

theorem isMag_two_pow {e : Nat} (he : e ≤ 253) : IsMag (2 ^ e) := by
  have h := isMag_of_lt (i := 1) (by norm_num) he
  rwa [Nat.one_mul] at h

theorem isMag_one : IsMag (2 ^ 149) := isMag_two_pow (by norm_num)

/-- The largest finite magnitude. -/
theorem isMag_largest : IsMag ((2 ^ 24 - 1) * 2 ^ 253) := isMag_of_lt (by norm_num) le_rfl

/-! ## Order, error and scaling -/

/-- Rounding keeps the order of the exact values. -/
theorem roundMag_mono {n n' d r r' : Nat} (hd : 0 < d) (h : n ≤ n') (hr : roundMag n d = some r)
    (hr' : roundMag n' d = some r') : r ≤ r' := by
  rcases Nat.eq_or_lt_of_le h with rfl | hlt
  · exact (Option.some.inj (hr.symm.trans hr')).le
  by_contra hgt
  obtain ⟨hrep, hnear⟩ := roundMag_nearestEven hd hr
  obtain ⟨hrep', hnear'⟩ := roundMag_nearestEven hd hr'
  have h1 := (hnear r' hrep').1
  have h2 := (hnear' r hrep).1
  have h3 : r' * d < r * d := Nat.mul_lt_mul_of_pos_right (Nat.not_le.1 hgt) hd
  rw [← Nat.cast_mul, ← Nat.cast_mul] at h1 h2
  omega

/-- A rounded quotient is within half of the divisor. -/
theorem divEven_error {n d : Nat} (hd : 0 < d) :
    2 * n ≤ 2 * (divEven n d * d) + d ∧ 2 * (divEven n d * d) ≤ 2 * n + d := by
  have hn := Nat.div_add_mod' n d
  have hr := Nat.mod_lt n hd
  have hcases := divEven_cases n d
  have hnext : (n / d + 1) * d = n / d * d + d := Nat.succ_mul ..
  rcases hcases with ⟨h, hrem⟩ | ⟨h, hrem⟩ <;> rw [h] <;> omega

/-- The relative error of a rounding is at most 2^-24, and its error in the subnormals half a unit. -/
theorem roundMag_error {n d r : Nat} (hd : 0 < d) (h : roundMag n d = some r) :
    2 ^ 24 * n ≤ 2 ^ 24 * (r * d) + n + 2 ^ 23 * d ∧ 2 ^ 24 * (r * d) ≤ 2 ^ 24 * n + n + 2 ^ 23 * d := by
  obtain ⟨-, rfl⟩ := roundMag_some h
  have hbin : binade (n / d) = 0 ∨ 2 ^ (23 + binade (n / d)) * d ≤ n :=
    (Nat.eq_zero_or_pos _).imp_right fun hpos => (Nat.le_div_iff_mul_le hd).1 (two_pow_binade_le hpos)
  generalize binade (n / d) = e at *
  have hunit : 2 ^ 23 * (d * 2 ^ e) ≤ n + 2 ^ 23 * d := by
    rcases hbin with rfl | hle
    · omega
    · calc 2 ^ 23 * (d * 2 ^ e) = 2 ^ (23 + e) * d := by rw [Nat.pow_add]; ring
        _ ≤ n + 2 ^ 23 * d := hle.trans (Nat.le_add_right ..)
  have herr := divEven_error (n := n) (d := d * 2 ^ e) (by positivity)
  rw [show divEven n (d * 2 ^ e) * 2 ^ e * d = divEven n (d * 2 ^ e) * (d * 2 ^ e) by ring]
  omega

theorem divEven_mul_mul {c : Nat} (hc : 0 < c) (n d : Nat) : divEven (c * n) (c * d) = divEven n d := by
  have h1 (x y : Nat) : 2 * (c * x) < c * y ↔ 2 * x < y := by
    rw [← Nat.mul_left_comm, Nat.mul_lt_mul_left hc]
  have h2 (x y : Nat) : c * y < 2 * (c * x) ↔ y < 2 * x := by
    rw [← Nat.mul_left_comm, Nat.mul_lt_mul_left hc]
  simp only [divEven, Nat.mul_div_mul_left _ _ hc, Nat.mul_mod_mul_left, h1, h2]

/-- In the normal range twice the value lies in the next binade. -/
theorem binade_double {n d : Nat} (hd : 0 < d) (h : 2 ^ 23 * d ≤ n) : binade (2 * n / d) = binade (n / d) + 1 := by
  have hq : 2 ^ 23 ≤ n / d := (Nat.le_div_iff_mul_le hd).2 h
  have hhalf : 2 * n / d / 2 = n / d := by
    rw [Nat.div_right_comm, Nat.mul_div_cancel_left n (by norm_num)]
  have hlog : 23 ≤ Nat.log2 (n / d) := (Nat.le_log2 (by omega)).2 hq
  have hlog' : Nat.log2 (2 * n / d) = Nat.log2 (2 * n / d / 2) + 1 := by
    rw [Nat.log2_def, if_pos (by omega)]
  rw [binade, binade, hlog', hhalf]
  omega

/-- Rounding commutes with doubling in the normal range, where nothing overflows. -/
theorem roundMag_double {n d r : Nat} (hd : 0 < d) (h : 2 ^ 23 * d ≤ n) (hr : roundMag n d = some r)
    (hmax : r ≤ 2 ^ 253) : roundMag (2 * n) d = some (2 * r) := by
  obtain ⟨-, rfl⟩ := roundMag_some hr
  have hbin := binade_double hd h
  have hm : divEven (2 * n) (d * 2 ^ binade (2 * n / d)) = divEven n (d * 2 ^ binade (n / d)) := by
    rw [hbin, show d * 2 ^ (binade (n / d) + 1) = 2 * (d * 2 ^ binade (n / d)) by rw [Nat.pow_succ]; ring,
      divEven_mul_mul (by norm_num)]
  cases hr' : roundMag (2 * n) d with
  | some r' =>
    obtain ⟨-, rfl⟩ := roundMag_some hr'
    rw [hm, hbin, Nat.pow_succ]
    ring_nf
  | none =>
    -- The binade of the doubled value would be past the last one, or full: then `r` reached `2 ^ 276`.
    rw [roundMag_eq_none_iff, hm, hbin] at hr'
    obtain ⟨hj, hje⟩ := divEven_significand (n := n) hd
    have hpow : 2 ^ 24 * 2 ^ 252 ≤ divEven n (d * 2 ^ binade (n / d)) * 2 ^ binade (n / d) := by
      rcases hr' with hlt | ⟨he, hm⟩
      · calc 2 ^ 24 * 2 ^ 252 = 2 ^ 23 * 2 ^ 253 := by norm_num
          _ ≤ _ := Nat.mul_le_mul (hje.resolve_left (by omega)) (Nat.pow_le_pow_right (by norm_num) (by omega))
      · rw [hm, show binade (n / d) = 252 by omega]
    omega

/-- Doubling a whole number of units doubles its rounding: below the normal range both are exact. -/
theorem roundMag_one_double {n r : Nat} (hr : roundMag n 1 = some r) (hmax : r ≤ 2 ^ 253) :
    roundMag (2 * n) 1 = some (2 * r) := by
  rcases Nat.lt_or_ge n (2 ^ 23) with hlt | hge
  · have hexact {k : Nat} (hk : k < 2 ^ 24) : roundMag k 1 = some k := by
      have h := roundMag_exact Nat.one_pos (isMag_of_lt hk (Nat.zero_le _))
      rwa [Nat.pow_zero, Nat.mul_one, Nat.mul_one] at h
    rw [hexact (by omega), Option.some.injEq] at hr
    rw [hexact (by omega), hr]
  · exact roundMag_double Nat.one_pos (by omega) hr hmax

/-! ## Exact results -/

theorem roundSum_exact {x : Int} (h : IsMag x.natAbs) : roundSum x = .fin (decide (x < 0)) x.natAbs := by
  have hround := roundMag_exact Nat.one_pos h
  rw [Nat.mul_one] at hround
  exact roundF_of_roundMag hround

/-- A representable sum is its own result. -/
theorem fadd_exact {s t : Bool} {m k : Nat} (h : IsMag (withSign s m + withSign t k).natAbs) :
    ∃ r n, fadd (.fin s m) (.fin t k) = .fin r n ∧ withSign r n = withSign s m + withSign t k := by
  rw [fadd_signed]
  split_ifs with h0
  · exact ⟨_, _, rfl, by rw [h0, withSign_eq_zero_iff]⟩
  · exact ⟨_, _, roundSum_exact h, withSign_decide_neg _⟩

/-- A representable difference is its own result. -/
theorem fsub_exact {s t : Bool} {m k : Nat} (h : IsMag (withSign s m - withSign t k).natAbs) :
    ∃ r n, fsub (.fin s m) (.fin t k) = .fin r n ∧ withSign r n = withSign s m - withSign t k := by
  rw [sub_eq_add_neg, ← withSign_not] at h ⊢
  exact fadd_exact h

theorem fmul_of_roundMag {s t : Bool} {m k r : Nat} (h : roundMag (m * k) unitsPerOne = some r) :
    fmul (.fin s m) (.fin t k) = .fin (s ^^ t) r :=
  roundF_of_roundMag h

theorem unitsPerOne_pos : 0 < unitsPerOne := by
  rw [unitsPerOne]
  positivity

end Sys2Proof.Machine


/-! # Proofs: ISQRT, INVSQRT and INVSQRTV2 (family 43_invsqrt, rules R190 to R199) -/

namespace Sys2Proof.Machine

/-! ## The domain (rule R198) -/

theorem sign_of_lt {w : Word} (h : w.toNat < 2 ^ 31) : w.getLsbD 31 = false := by
  rw [sign_eq, decide_eq_false (Nat.not_le.2 h)]

/-- The positive finite data are the words between +0 and the positive infinity. -/
theorem isqrtInDomain_of_pos {a : Word} (h0 : 0 < a.toNat) (h1 : a.toNat < 0x7F800000) :
    isqrtInDomain (opF32 a) = true := by
  obtain ⟨m, e, -, -, hme, hw, hf⟩ := f32_of_finite (w := a) (by omega)
  have hm : m ≠ 0 := by
    rintro rfl
    omega
  rw [opF32, hf, sign_of_lt (by omega)]
  simp [isqrtInDomain, Nat.pos_of_ne_zero hm]

theorem isqrtInDomain_of_outside {a : Word} (h : a = 0 ∨ 0x7F800000 ≤ a.toNat) :
    isqrtInDomain (opF32 a) = false := by
  rcases h with rfl | h
  · rfl
  rw [opF32]
  rcases Nat.lt_or_ge (a.toNat % 2 ^ 31) 0x7F800000 with hfin | hnot
  · obtain ⟨m, e, -, -, -, -, hf⟩ := f32_of_finite hfin
    rw [hf, sign_eq, decide_eq_true (by omega)]
    rfl
  · rcases f32_of_not_finite hnot with ⟨hf, -⟩ | hf <;> rw [hf] <;> rfl

/-! ## What the three operations answer -/

section
variable {a : Word} (b : Word) (s : State)

theorem exec_isqrt_of_domain (h : isqrtInDomain (opF32 a) = true) :
    exec (.isqrt a b) s = .next (accept ⟨7, a, b⟩ (isqrtWord a) s) := if_pos h

theorem exec_invsqrt_of_domain (h : isqrtInDomain (opF32 a) = true) :
    exec (.invsqrt a b) s = .next (accept ⟨8, a, b⟩ (invsqrtWord a) s) := if_pos h

theorem exec_invsqrtv2_of_domain (h : isqrtInDomain (opF32 a) = true) :
    exec (.invsqrtv2 a b) s = .next (accept ⟨9, a, b⟩ (invsqrtv2Word a) s) := if_pos h

theorem exec_isqrt_of_outside (h : isqrtInDomain (opF32 a) = false) :
    exec (.isqrt a b) s = .next (raiseViolation .isqrtDomain ⟨7, a, b⟩ (Config.isqrtDomainResult 7 a) s) :=
  if_neg (Bool.eq_false_iff.1 h)

theorem exec_invsqrt_of_outside (h : isqrtInDomain (opF32 a) = false) :
    exec (.invsqrt a b) s = .next (raiseViolation .isqrtDomain ⟨8, a, b⟩ (Config.isqrtDomainResult 8 a) s) :=
  if_neg (Bool.eq_false_iff.1 h)

theorem exec_invsqrtv2_of_outside (h : isqrtInDomain (opF32 a) = false) :
    exec (.invsqrtv2 a b) s = .next (raiseViolation .isqrtDomain ⟨9, a, b⟩ (Config.isqrtDomainResult 9 a) s) :=
  if_neg (Bool.eq_false_iff.1 h)

end

/-- Settles O46: outside the domain each operation raises the violation. -/
theorem inverseRootDomainViolation : Obligations.InverseRootDomainViolation := by
  intro a b s h
  have hd := isqrtInDomain_of_outside h
  exact ⟨⟨_, exec_isqrt_of_outside b s hd⟩, ⟨_, exec_invsqrt_of_outside b s hd⟩,
    ⟨_, exec_invsqrtv2_of_outside b s hd⟩⟩

/-! ## The seed (rule R191) -/

theorem seed_toNat {w m : Word} (h : w.toNat / 2 ≤ m.toNat) : (m - (w >>> 1)).toNat = m.toNat - w.toNat / 2 := by
  have hshift : (w >>> 1).toNat = w.toNat / 2 := by
    rw [BitVec.toNat_ushiftRight, Nat.shiftRight_eq_div_pow, Nat.pow_one]
  rw [BitVec.toNat_sub_of_le (BitVec.le_def.2 (hshift.trans_le h)), hshift]

/-- For a positive argument no bit is borrowed. -/
theorem seed_eq {w m : Word} (h : w.toNat / 2 ≤ m.toNat) :
    seed w m = f32 (BitVec.ofNat 32 (m.toNat - w.toNat / 2)) := by
  rw [seed, ← seed_toNat h, BitVec.ofNat_toNat, BitVec.setWidth_eq]

/-- Both magic constants keep the seed's encoding in the positive normal range (rule R191). -/
theorem seed_normal {w m : Word} (hw : w.toNat < 2 ^ 31) (hm : 0x5F1FFFF9 ≤ m.toNat) (hm' : m.toNat ≤ 0x5F3759DF) :
    ∃ k e, 2 ^ 23 ≤ k ∧ k < 2 ^ 24 ∧ e ≤ 253 ∧ e * 2 ^ 23 + k = m.toNat - w.toNat / 2 ∧
      seed w m = .fin false (k * 2 ^ e) := by
  have hseed := seed_toNat (w := w) (m := m) (by omega)
  obtain ⟨k, e, hk, he, hke, hval, hf⟩ := f32_of_finite (w := m - (w >>> 1)) (by omega)
  refine ⟨k, e, ?_, hk, he, by omega, ?_⟩
  · rcases hke with rfl | hke <;> omega
  · rw [seed, hf, sign_of_lt (by omega)]

/-- Settles O47: the encoding is the exact difference, whose range is positive normal. -/
theorem seedIsPositiveNormal : Obligations.SeedIsPositiveNormal := by
  intro w m hw hm
  have hrange : 0x5F1FFFF9 ≤ m.toNat ∧ m.toNat ≤ 0x5F3759DF := by
    rcases hm with rfl | rfl <;> decide
  obtain ⟨k, e, hk, -, -, -, hf⟩ := seed_normal hw hrange.1 hrange.2
  have hseed := seed_toNat (w := w) (m := m) (by omega)
  have hle : k ≤ k * 2 ^ e := Nat.le_mul_of_pos_right k (by positivity)
  exact ⟨m - (w >>> 1), rfl, by omega, by omega, k * 2 ^ e, hf, hk.trans hle⟩

/-! ## The response words, with the encodings of rule R17 for the constants' names -/

section
variable {a : Word}

theorem isqrtWord_eq (h : a.toNat < 0x7F800000) :
    isqrtWord a = bits (formA (f32 a) (f32 (BitVec.ofNat 32 (0x5F3759DF - a.toNat / 2)))) := by
  rw [isqrtWord, resF32, opF32, seed_eq (by simp [Config.magicNewton]; omega)]
  rfl

theorem invsqrtWord_eq (h : a.toNat < 0x7F800000) :
    invsqrtWord a = bits (formB (f32 a) (f32 (BitVec.ofNat 32 (0x5F3759DF - a.toNat / 2)))) := by
  rw [invsqrtWord, resF32, opF32, seed_eq (by simp [Config.magicNewton]; omega)]
  rfl

theorem invsqrtv2Word_eq (h : a.toNat < 0x7F800000) :
    invsqrtv2Word a = bits (formK (f32 a) (f32 (BitVec.ofNat 32 (0x5F1FFFF9 - a.toNat / 2)))) := by
  rw [invsqrtv2Word, resF32, opF32, seed_eq (by simp [Config.magicV2]; omega)]
  rfl

end

/-- Settles O43: ISQRT accepts its request with the form of its seed, or raises the violation. -/
theorem isqrtResult : Obligations.IsqrtResult := by
  refine ⟨fun a b s h => ⟨_, exec_isqrt_of_outside b s (isqrtInDomain_of_outside h), rfl⟩,
    fun a b s h0 h1 => ?_⟩
  rw [exec_isqrt_of_domain b s (isqrtInDomain_of_pos h0 h1), isqrtWord_eq h1]
  rfl

/-- Settles O44: as ISQRT, with FORM_B. -/
theorem invsqrtResult : Obligations.InvsqrtResult := by
  refine ⟨fun a b s h => ⟨_, exec_invsqrt_of_outside b s (isqrtInDomain_of_outside h), rfl⟩,
    fun a b s h0 h1 => ?_⟩
  rw [exec_invsqrt_of_domain b s (isqrtInDomain_of_pos h0 h1), invsqrtWord_eq h1]
  rfl

/-- Settles O45: as ISQRT, with FORM_K and the other magic constant. -/
theorem invsqrtv2Result : Obligations.Invsqrtv2Result := by
  refine ⟨fun a b s h => ⟨_, exec_invsqrtv2_of_outside b s (isqrtInDomain_of_outside h), rfl⟩,
    fun a b s h0 h1 => ?_⟩
  rw [exec_invsqrtv2_of_domain b s (isqrtInDomain_of_pos h0 h1), invsqrtv2Word_eq h1]
  rfl

/-! ## FORM_A and FORM_B (rule R199): halving the argument halves every step, exactly -/

theorem f32_k0_5 : f32 Config.k0_5 = .fin false (2 ^ 148) := by decide

/-- Halving is exact where the half is representable. -/
theorem fmul_half (s : Bool) {k : Nat} (hk : IsMag k) : fmul (f32 Config.k0_5) (.fin s (2 * k)) = .fin s k := by
  have hround : roundMag (2 ^ 148 * (2 * k)) unitsPerOne = some k := by
    rw [show 2 ^ 148 * (2 * k) = k * unitsPerOne by rw [unitsPerOne]; ring]
    exact roundMag_exact unitsPerOne_pos hk
  rw [f32_k0_5, fmul_of_roundMag hround, Bool.false_xor]

/-- Moving a factor of two between the factors does not change a product. -/
theorem fmul_double_right (s t : Bool) (m k : Nat) :
    fmul (.fin s m) (.fin t (2 * k)) = fmul (.fin s (2 * m)) (.fin t k) := by
  rw [fmul_fin, fmul_fin, show m * (2 * k) = 2 * m * k by ring]

/-- A difference of doubled operands is the double of the difference. -/
theorem fsub_double {s t r : Bool} {m k n : Nat} (h : fsub (.fin s m) (.fin t k) = .fin r n) (hmax : n ≤ 2 ^ 253) :
    fsub (.fin s (2 * m)) (.fin t (2 * k)) = .fin r (2 * n) := by
  have hdouble (s : Bool) (m : Nat) : withSign s (2 * m) = 2 * withSign s m := by
    cases s <;> simp [withSign]
  rw [fsub_signed] at h
  rw [fsub_signed, hdouble, hdouble, ← Int.mul_sub]
  generalize withSign s m - withSign t k = x at *
  by_cases hx : x = 0
  · rw [if_pos hx] at h
    cases h
    rw [if_pos (by omega)]
  · rw [if_neg hx, roundSum] at h
    rw [if_neg (by omega), roundSum, show decide (2 * x < 0) = decide (x < 0) from decide_eq_decide.2 (by omega),
      show (2 * x).natAbs = 2 * x.natAbs by omega]
    rcases roundF_cases (decide (x < 0)) x.natAbs 1 with ⟨r', hr, hf⟩ | ⟨-, hf⟩ <;> rw [hf] at h <;> cases h
    exact roundF_of_roundMag (roundMag_one_double hr hmax)

/-- Between powers of two of the normal range a rounding stays between them and commutes with doubling. -/
theorem roundMag_double_of_range {n d a b : Nat} (hd : 0 < d) (ha : 23 ≤ a) (hb : b ≤ 253) (hlo : 2 ^ a * d ≤ n)
    (hhi : n ≤ 2 ^ b * d) :
    ∃ r, roundMag n d = some r ∧ roundMag (2 * n) d = some (2 * r) ∧ 2 ^ a ≤ r ∧ r ≤ 2 ^ b := by
  obtain ⟨r, hr, hle⟩ := roundMag_of_le hd (isMag_two_pow hb) hhi
  have hpow : 2 ^ a ≤ 2 ^ b := Nat.le_of_mul_le_mul_right (hlo.trans hhi) hd
  have hab : a ≤ b := (Nat.pow_le_pow_iff_right (by norm_num)).1 hpow
  have hnormal : 2 ^ 23 * d ≤ n := (Nat.mul_le_mul_right d (Nat.pow_le_pow_right (by norm_num) ha)).trans hlo
  have hmax : r ≤ 2 ^ 253 := hle.trans (Nat.pow_le_pow_right (by norm_num) hb)
  exact ⟨r, hr, roundMag_double hd hnormal hr hmax, le_of_roundMag hd (isMag_two_pow (by omega)) hlo hr, hle⟩

/-- The two products that both forms take of an argument `2 * h` and a seed `r`. -/
structure FormProducts (h r p t : Nat) : Prop where
  first : roundMag (h * r) unitsPerOne = some p
  firstDouble : roundMag (2 * (h * r)) unitsPerOne = some (2 * p)
  second : roundMag (p * r) unitsPerOne = some t
  secondDouble : roundMag (2 * (p * r)) unitsPerOne = some (2 * t)

/-- Where the products commute with doubling, FORM_B runs through the doubles of FORM_A's values. -/
theorem formA_eq_formB {h r p t : Nat} (hh : IsMag h) (hr : IsMag r) (ht : t ≤ 2 ^ 252)
    (hp : FormProducts h (2 * r) p t) :
    formA (.fin false (2 * h)) (.fin false (2 * r)) = formB (.fin false (2 * h)) (.fin false (2 * r)) := by
  have h15 : f32 Config.k1_5 = .fin false (3 * 2 ^ 148) := by decide
  have h3 : f32 Config.k3 = .fin false (2 * (3 * 2 ^ 148)) := by decide
  obtain ⟨s, u, hu, humax⟩ : ∃ s u, fsub (f32 Config.k1_5) (.fin false t) = .fin s u ∧ u ≤ 2 ^ 253 := by
    rw [h15, fsub_signed]
    split_ifs
    · exact ⟨_, 0, rfl, Nat.zero_le _⟩
    · obtain ⟨u, hu, hle⟩ := roundMag_of_le (n := (withSign false (3 * 2 ^ 148) - withSign false t).natAbs)
        Nat.one_pos (isMag_two_pow le_rfl) (by simp only [withSign, Bool.false_eq_true, if_false]; omega)
      exact ⟨_, u, roundF_of_roundMag hu, hle⟩
  have hu' : fsub (f32 Config.k3) (.fin false (2 * t)) = .fin s (2 * u) := by
    rw [h3]
    exact fsub_double (h15 ▸ hu) humax
  have h2 : 2 * h * (2 * r) = 2 * (h * (2 * r)) := by ring
  have hp2 : 2 * p * (2 * r) = 2 * (p * (2 * r)) := by ring
  simp only [formA, formB, fmul_half _ hh, fmul_half _ hr, fmul_of_roundMag hp.first, fmul_of_roundMag hp.second,
    fmul_of_roundMag (h2 ▸ hp.firstDouble), fmul_of_roundMag (hp2 ▸ hp.secondDouble), Bool.xor_false, hu, hu',
    fmul_double_right]

/-- A significand of 24 bits lies between powers of two. -/
theorem significand_range {m e : Nat} (h : 2 ^ 23 ≤ m) (h' : m < 2 ^ 24) :
    2 ^ (23 + e) ≤ m * 2 ^ e ∧ m * 2 ^ e ≤ 2 ^ (24 + e) := by
  rw [Nat.pow_add, Nat.pow_add]
  exact ⟨Nat.mul_le_mul_right _ h, Nat.mul_le_mul_right _ h'.le⟩

/-- A product of numbers between powers of two, in units of 1.0. -/
theorem product_range {x y a b c d : Nat} (hx : 2 ^ a ≤ x ∧ x ≤ 2 ^ b) (hy : 2 ^ c ≤ y ∧ y ≤ 2 ^ d)
    (h : 149 ≤ a + c ∧ 149 ≤ b + d) :
    2 ^ (a + c - 149) * unitsPerOne ≤ x * y ∧ x * y ≤ 2 ^ (b + d - 149) * unitsPerOne := by
  have hunit {e : Nat} (he : 149 ≤ e) : 2 ^ (e - 149) * unitsPerOne = 2 ^ e := by
    rw [unitsPerOne, ← Nat.pow_add, Nat.sub_add_cancel he]
  rw [hunit h.1, hunit h.2, Nat.pow_add, Nat.pow_add]
  exact ⟨Nat.mul_le_mul hx.1 hy.1, Nat.mul_le_mul hx.2 hy.2⟩

/-- The products of both forms for an argument and a seed whose exponents are near to inverse square roots. -/
theorem formProducts_of_range {h r e f : Nat} (hh : 2 ^ (23 + e) ≤ h ∧ h ≤ 2 ^ (24 + e))
    (hr : 2 ^ (23 + f) ≤ r ∧ r ≤ 2 ^ (24 + f)) (hef : 126 ≤ e + f ∧ e + f ≤ 350) (hlo : 252 ≤ e + 2 * f)
    (hhi : e + 2 * f ≤ 478) : ∃ p t, t ≤ 2 ^ 252 ∧ FormProducts h r p t := by
  obtain ⟨hplo, hphi⟩ := product_range hh hr (by omega)
  obtain ⟨p, hp, hp2, hrange⟩ := roundMag_double_of_range unitsPerOne_pos (by omega) (by omega) hplo hphi
  obtain ⟨htlo, hthi⟩ := product_range hrange hr (by omega)
  obtain ⟨t, ht, ht2, -, hle⟩ := roundMag_double_of_range unitsPerOne_pos (by omega) (by omega) htlo hthi
  exact ⟨p, t, hle.trans (Nat.pow_le_pow_right (by norm_num) (by omega)), hp, hp2, ht, ht2⟩

/-- Settles O48: from 2^-125 on the halved argument is exact and both products stay normal, since the seed's exponent is
near to half of the argument's, negated. -/
theorem isqrtAgreesWithInvsqrt : Obligations.IsqrtAgreesWithInvsqrt := by
  intro a h0 h1
  obtain ⟨m, e, hm, he, hme, hw, hf⟩ := f32_of_finite (w := a) (by omega)
  obtain ⟨k, f, hk, hk', hf', hval, hseed⟩ :=
    seed_normal (w := a) (m := Config.magicNewton) (by omega) (by decide) (by decide)
  have hmagic : Config.magicNewton.toNat = 0x5F3759DF := rfl
  obtain ⟨e, rfl⟩ : ∃ e', e = e' + 1 := ⟨e - 1, by omega⟩
  obtain ⟨f, rfl⟩ : ∃ f', f = f' + 1 := ⟨f - 1, by omega⟩
  have hsucc (m e : Nat) : m * 2 ^ (e + 1) = 2 * (m * 2 ^ e) := by
    rw [Nat.pow_succ]
    ring
  obtain ⟨p, t, ht, hp⟩ := formProducts_of_range (significand_range (e := e) (hme.resolve_left (by omega)) hm)
    (hsucc k f ▸ significand_range (e := f + 1) hk hk') (by omega) (by omega) (by omega)
  rw [isqrtWord, invsqrtWord, opF32, hseed, hf, sign_of_lt (by omega), hsucc, hsucc,
    formA_eq_formB (isMag_of_lt hm (by omega)) (isMag_of_lt hk' (by omega)) ht hp]

end Sys2Proof.Machine


/-! # Proofs: WRAP, and arguments that are not finite (family 40_trig_poly, rules R100 to R103) -/

namespace Sys2Proof.Machine

/-! ## WRAP rounds to an even integer (rule R103) -/

/-- The even integers up to 2^25 are representable; `2 ^ 150` units make 2. -/
theorem isMag_even_integer {i : Nat} (h : i ≤ 2 ^ 24) : IsMag (i * 2 ^ 150) := by
  rcases Nat.lt_or_eq_of_le h with hlt | rfl
  · exact isMag_of_lt hlt (by norm_num)
  · rw [← Nat.pow_add]
    exact isMag_two_pow (by norm_num)

/-- From 2^24 to 2^25 a value rounds to the nearest even integer. -/
theorem roundMag_even_integer {n : Nat} (hlo : 2 ^ 173 ≤ n) (hhi : n ≤ 2 ^ 174) :
    ∃ j : Nat, 2 ^ 23 ≤ j ∧ j ≤ 2 ^ 24 ∧ roundMag n 1 = some (j * 2 ^ 150) ∧
      ((j * 2 ^ 150 : Int) - n).natAbs ≤ 2 ^ 149 ∧
      ∀ k, IsMag k → ((j * 2 ^ 150 : Int) - n).natAbs ≤ ((k : Int) - n).natAbs := by
  obtain ⟨z, hz, hzhi⟩ := roundMag_of_le (n := n) Nat.one_pos (isMag_two_pow (e := 174) (by norm_num)) (by omega)
  have hzlo := le_of_roundMag Nat.one_pos (isMag_two_pow (e := 173) (by norm_num)) (by omega) hz
  obtain ⟨j, rfl⟩ := (roundMag_isMag Nat.one_pos hz).multiple (e := 150) (.inr hzlo)
  have hnear (k : Nat) (hk : IsMag k) : ((j * 2 ^ 150 : Int) - n).natAbs ≤ ((k : Int) - n).natAbs := by
    have h := ((roundMag_nearestEven Nat.one_pos hz).2 k hk.representable).1
    push_cast at h
    rwa [Int.mul_one, Int.mul_one] at h
  refine ⟨j, by omega, by omega, hz, ?_, hnear⟩
  have hbelow := hnear (n / 2 ^ 150 * 2 ^ 150) (isMag_even_integer (by omega))
  rcases Nat.lt_or_ge (n / 2 ^ 150) (2 ^ 24) with hlt | hge
  · have habove := hnear ((n / 2 ^ 150 + 1) * 2 ^ 150) (isMag_even_integer hlt)
    push_cast at hbelow habove
    omega
  · push_cast at hbelow
    omega

/-- What an even integer leaves of a datum of at most 2^23 is representable if it is no larger than the datum: it is a
multiple of the datum's own unit. -/
theorem isMag_remainder {s : Bool} {m : Nat} (hm : IsMag m) (hmax : m ≤ 2 ^ 172) {k : Int}
    (hle : (withSign s m - k * 2 ^ 150).natAbs ≤ m) : IsMag (withSign s m - k * 2 ^ 150).natAbs := by
  obtain ⟨i, e, hi, -, hie, rfl⟩ := hm
  have he : e ≤ 149 := by
    rcases hie with rfl | hi'
    · omega
    · have h := (significand_range (e := e) hi' hi).1.trans hmax
      have := (Nat.pow_le_pow_iff_right (by norm_num)).1 h
      omega
  have hmul : withSign s (i * 2 ^ e) - k * 2 ^ 150 = (withSign s i - k * 2 ^ (150 - e)) * 2 ^ e := by
    have hsign : withSign s (i * 2 ^ e) = withSign s i * 2 ^ e := by
      cases s <;> simp [withSign]
    rw [hsign, Int.sub_mul, Int.mul_assoc, ← pow_add, Nat.sub_add_cancel (by omega)]
  have hpow : ((2 : Int) ^ e).natAbs = 2 ^ e := by simp [Int.natAbs_pow]
  rw [hmul, Int.natAbs_mul, hpow] at hle ⊢
  exact isMag_of_lt ((Nat.le_of_mul_le_mul_right hle (by positivity)).trans_lt hi) (by omega)

theorem f32_c24 : f32 Config.c24 = .fin false (3 * 2 ^ 172) := by decide

/-- Adding C24 to a datum of at most 2^23 rounds it to the nearest even integer above C24, which is no farther from it
than 0 is. -/
theorem fadd_c24 {s : Bool} {m : Nat} (hmax : m ≤ 2 ^ 172) :
    ∃ j : Nat, 2 ^ 23 ≤ j ∧ j ≤ 2 ^ 24 ∧ fadd (.fin s m) (f32 Config.c24) = .fin false (j * 2 ^ 150) ∧
      (withSign s m - (j - 3 * 2 ^ 22 : Int) * 2 ^ 150).natAbs ≤ 2 ^ 149 ∧
      (withSign s m - (j - 3 * 2 ^ 22 : Int) * 2 ^ 150).natAbs ≤ m := by
  obtain ⟨n, hn⟩ : ∃ n : Nat, withSign s m + withSign false (3 * 2 ^ 172) = n := by
    refine ⟨_, (Int.toNat_of_nonneg ?_).symm⟩
    cases s <;> simp only [withSign, if_true, Bool.false_eq_true, if_false] <;> omega
  have hrange : 2 ^ 173 ≤ n ∧ n ≤ 2 ^ 174 ∧ ((3 * 2 ^ 172 : Int) - n).natAbs = m := by
    cases s <;> simp only [withSign, if_true, Bool.false_eq_true, if_false] at hn <;> omega
  obtain ⟨hlo, hhi, hm⟩ := hrange
  obtain ⟨j, hj, hj', hz, hone, hnear⟩ := roundMag_even_integer hlo hhi
  have hzero := hnear (3 * 2 ^ 172) (isMag_of_lt (by norm_num) (by norm_num))
  have hrest : (withSign s m - (j - 3 * 2 ^ 22 : Int) * 2 ^ 150).natAbs = ((j * 2 ^ 150 : Int) - n).natAbs := by
    simp only [withSign, Bool.false_eq_true, if_false] at hn ⊢
    omega
  rw [← hrest] at hone hzero
  refine ⟨j, hj, hj', ?_, hone, ?_⟩
  · rw [f32_c24, fadd_signed, hn, if_neg (by omega), roundSum, decide_eq_false (by omega), Int.natAbs_natCast]
    exact roundF_of_roundMag hz
  · push_cast at hzero
    omega

/-- Taking C24 away again is exact. -/
theorem fsub_c24 {j : Nat} (hj : 2 ^ 23 ≤ j) (hj' : j ≤ 2 ^ 24) :
    ∃ r v, fsub (.fin false (j * 2 ^ 150)) (f32 Config.c24) = .fin r v ∧
      withSign r v = (j - 3 * 2 ^ 22 : Int) * 2 ^ 150 := by
  have hdiff : withSign false (j * 2 ^ 150) - withSign false (3 * 2 ^ 172) = (j - 3 * 2 ^ 22 : Int) * 2 ^ 150 := by
    simp only [withSign, Bool.false_eq_true, if_false]
    omega
  rw [f32_c24, ← hdiff]
  refine fsub_exact ?_
  rw [hdiff, Int.natAbs_mul]
  exact isMag_even_integer (by omega)

/-- Settles O30: adding C24 rounds to an even integer, taking it away again is exact, and so is the last difference. -/
theorem wrapConfinesToOnePeriod : Obligations.WrapConfinesToOnePeriod := by
  intro w s m hw hmax
  have hmax' : m ≤ 2 ^ 172 := by omega
  obtain ⟨j, hj, hj', hsum, hone, hle⟩ := fadd_c24 (s := s) hmax'
  obtain ⟨r, v, hv, hrv⟩ := fsub_c24 hj hj'
  rw [← hrv] at hone
  obtain ⟨s', m', hres, hval⟩ := fsub_exact (s := s) (t := r) (m := m) (k := v) (by
    rw [hrv]
    exact isMag_remainder (isMag_of_f32 hw) hmax' hle)
  refine ⟨s', m', j - 3 * 2 ^ 22, ?_, ?_, ?_⟩
  · rw [wrap, hsum, hv, hres]
  · rwa [← withSign_natAbs s' m', hval]
  · change withSign s' m' = withSign s m - _
    rw [hval, hrv]
    ring

/-! ## Infinities and NaNs (rules R100, R101) -/

theorem fold_inf (s : Bool) : fold (.inf s) = nanF := by
  cases s <;> rfl

/-- A word whose exponent field is all ones, by its number. -/
theorem f32_of_exponent_255 {a : Word} (h : a.toNat / 2 ^ 23 % 256 = 255) :
    (∃ s, f32 a = .inf s) ∨ f32 a = .nan a :=
  (f32_of_not_finite (w := a) (by omega)).imp_left fun ⟨h, _⟩ => ⟨_, h⟩

theorem sinpWord_of_not_finite {a : Word} (h : (∃ s, f32 a = .inf s) ∨ f32 a = .nan a) :
    sinpWord a = Config.nanResult := by
  rw [sinpWord, opF32, resF32]
  rcases h with ⟨s, h⟩ | h <;> rw [h]
  · rw [show fmul (.inf s) (f32 Config.invPi) = .inf s by cases s <;> rfl, fold_inf]
    rfl
  · rfl

theorem cospWord_of_not_finite {a : Word} (h : (∃ s, f32 a = .inf s) ∨ f32 a = .nan a) :
    cospWord a = Config.nanResult := by
  rw [cospWord, opF32, resF32]
  rcases h with ⟨s, h⟩ | h <;> rw [h]
  · cases s <;> rfl
  · rfl

end Sys2Proof.Machine


/-! # Proofs: the range of the table sine, and the entries it reads (family 41_trig_lut, rules R127, R129) -/

namespace Sys2Proof.Machine

/-! ## The entries read (rule R127) -/

/-- An angle that reads the table is folded to one of the indexes 10 to 90. -/
theorem slut_congr {rom rom' : Memory} (h : ∀ i, 10 ≤ i → i ≤ 90 → rom[i]? = rom'[i]?) (angle : Int) :
    slut rom angle = slut rom' angle := by
  have hle : (lutFold (lutMagnitude angle)).2 ≤ 900 := by
    rw [lutMagnitude_eq]
    exact lutFold_le (Nat.mod_lt _ (by decide))
  unfold slut
  dsimp only
  by_cases hv : (lutFold (lutMagnitude angle)).2 < 105
  · rw [if_pos hv, if_pos hv]
  · rw [if_neg hv, if_neg hv, romRead_congr (h _ (by omega) (by omega))]

/-- Settles O33: both operations go through `SLUT`. -/
theorem lutReadsOnlyEntries10To90 : Obligations.LutReadsOnlyEntries10To90 := by
  intro rom rom' a b h
  exact ⟨by rw [responseOf, responseOf, sinlutWord, sinlutWord, slut_congr h],
    by rw [responseOf, responseOf, coslutWord, coslutWord, slut_congr h]⟩

/-! ## The range (rule R129) -/

/-- Between representable bounds a rounding stays finite and between them. -/
theorem roundF_between (neg : Bool) {n d l k : Nat} (hd : 0 < d) (hl : IsMag l) (hk : IsMag k) (hlo : l * d ≤ n)
    (hhi : n ≤ k * d) : ∃ r, roundF neg n d = .fin neg r ∧ l ≤ r ∧ r ≤ k := by
  obtain ⟨r, hr, hle⟩ := roundMag_of_le hd hk hhi
  exact ⟨r, roundF_of_roundMag hr, le_of_roundMag hd hl hlo hr, hle⟩

/-- A finite datum of magnitude at most 1.0 that is not -0. -/
def IsTableSine (f : F32) : Prop :=
  ∃ (neg : Bool) (m : Nat), f = .fin neg m ∧ m ≤ 2 ^ 149 ∧ (m = 0 → neg = false)

/-- A rounding up to 1.0 is such a datum if its exact value is +0 or not too small to round to 0. -/
theorem isTableSine_roundF {neg : Bool} {n d l : Nat} (hd : 0 < d) (hl : IsMag l) (hl0 : 0 < l)
    (hlo : n = 0 ∧ neg = false ∨ l * d ≤ n) (hhi : n ≤ 2 ^ 149 * d) : IsTableSine (roundF neg n d) := by
  rcases hlo with ⟨rfl, rfl⟩ | hlo
  · exact ⟨false, 0, roundF_zero _ hd, Nat.zero_le _, fun _ => rfl⟩
  · obtain ⟨r, hr, hle, hge⟩ := roundF_between neg hd hl isMag_one hlo hhi
    exact ⟨neg, r, hr, hge, fun h0 => absurd hle (by omega)⟩

/-- A signed integer of at most 24 bits converts exactly, and 0 to +0. -/
theorem i2f_withSign (s : Bool) {v : Nat} (h : v ≤ 2 ^ 24) :
    ∃ neg, i2f (withSign s v) = .fin neg (v * unitsPerOne) ∧ (v = 0 → neg = false) := by
  refine ⟨_, by rw [i2f_exact (by rwa [withSign_natAbs]), withSign_natAbs], ?_⟩
  rintro rfl
  cases s <;> rfl

theorem f32_pi1800 : f32 Config.pi1800 = .fin false (14992264 * 2 ^ 116) := by decide

theorem f32_k1000 : f32 Config.k1000 = .fin false (1000 * 2 ^ 149) := by decide

/-- The linear part: at most 104 steps of π/1800. -/
theorem isTableSine_linear (s : Bool) {v : Nat} (h : v < 105) :
    IsTableSine (fmul (i2f (withSign s v)) (f32 Config.pi1800)) := by
  obtain ⟨neg, hv, h0⟩ := i2f_withSign s (show v ≤ 2 ^ 24 by omega)
  rw [hv, f32_pi1800, fmul_fin, Bool.xor_false, unitsPerOne]
  refine isTableSine_roundF (l := 14992264 * 2 ^ 116) (by positivity) (isMag_of_lt (by norm_num) (by norm_num))
    (by norm_num) ?_ (by omega)
  rcases Nat.eq_zero_or_pos v with rfl | hpos
  · exact .inl ⟨by norm_num, h0 rfl⟩
  · exact .inr (by omega)

/-- The table part: an entry of at most 1000 over 1000. -/
theorem isTableSine_entry (s : Bool) {v : Nat} (h : v ≤ 1000) :
    IsTableSine (fdiv (i2f (withSign s v)) (f32 Config.k1000)) := by
  obtain ⟨neg, hv, h0⟩ := i2f_withSign s (show v ≤ 2 ^ 24 by omega)
  rw [hv, f32_k1000, fdiv_fin _ _ _ (by norm_num), Bool.xor_false, unitsPerOne]
  refine isTableSine_roundF (l := 2 ^ 139) (by positivity) (isMag_two_pow (by norm_num)) (by norm_num) ?_ (by omega)
  rcases Nat.eq_zero_or_pos v with rfl | hpos
  · exact .inl ⟨by norm_num, h0 rfl⟩
  · exact .inr (by omega)

/-- Settles O34: both parts of `SLUT` stay between 0 and 1.0, and 0 comes from the integer 0 alone. -/
theorem lutResultIsAtMostOne : Obligations.LutResultIsAtMostOne := by
  intro rom angle hwf
  have hle : (lutFold (angle.natAbs % 3600)).2 ≤ 900 := lutFold_le (Nat.mod_lt _ (by decide))
  have hentry := Memory.wf_entry_le hwf (i := (lutFold (angle.natAbs % 3600)).2 / 10) (by omega)
  have hsine : ∃ f, slut rom angle = .ok f ∧ IsTableSine f := by
    rw [slut_of_wf hwf]
    refine ⟨_, rfl, ?_⟩
    dsimp only
    split_ifs with hv
    · exact isTableSine_linear _ hv
    · exact isTableSine_entry _ hentry
  obtain ⟨_, hf, neg, m, rfl, hm⟩ := hsine
  exact ⟨neg, m, hf, hm⟩

end Sys2Proof.Machine


/-! # Proofs: ATAN over its whole range (family 42_arctan, rule R150) -/

namespace Sys2Proof.Machine

/-! ## The sign bit of a word (rule R10) -/

theorem signed31_xor_sign (neg : Bool) (low : Nat) : signed31 neg low ^^^ 0x80000000#32 = signed31 (!neg) low := by
  rw [signed31, show (0x80000000#32) = 1#1 ++ 0#31 from rfl, BitVec.xor_append, BitVec.xor_zero]
  cases neg <;> rfl

/-- Flipping the sign bit of a finite datum's encoding negates it. -/
theorem f32_xor_sign {w : Word} {neg : Bool} {m : Nat} (h : f32 w = .fin neg m) :
    f32 (w ^^^ 0x80000000#32) = .fin (!neg) m := by
  calc f32 (w ^^^ 0x80000000#32) = f32 (bits (f32 w) ^^^ 0x80000000#32) := by rw [encodingReadsBack]
    _ = f32 (bits (.fin (!neg) m)) := by rw [h, bits, signed31_xor_sign, bits]
    _ = .fin (!neg) m := f32_bits_fin _ (isMag_of_f32 h)

theorem getLsbD_xor_sign (w : Word) : (w ^^^ 0x80000000#32).getLsbD 31 = !w.getLsbD 31 := by
  rw [BitVec.getLsbD_xor, show (0x80000000#32).getLsbD 31 = true from rfl, Bool.xor_true]

/-! ## The quotient of rule R150, which does not read the sign -/

/-- The numerator of ATAN's quotient. -/
def atanNum (x : F32) : F32 := fadd (fabs (fmul (f32 Config.kAtan) x)) (fmul x x)

/-- ATAN's quotient, before the sign is joined. -/
def atanQuotient (x : F32) : F32 :=
  fdiv (atanNum x) (fadd (fadd (f32 Config.one) (fabs (fmul (f32 Config.kAtan) x))) (atanNum x))

theorem atanWord_eq (a : Word) :
    atanWord a = bits (fmul (forSign (a.getLsbD 31) (atanQuotient (f32 a))) (f32 Config.kPi2)) := rfl

/-- A NaN stays one when the sign is joined, and its product is the result NaN (rule R14). -/
theorem atanWord_of_quotient_nan {a w : Word} (h : atanQuotient (f32 a) = .nan w) : atanWord a = Config.nanResult := by
  rw [atanWord_eq, h, forSign, fmul_nan_left]
  rfl

/-- A sum of something with the infinite square is that infinity or a NaN, and so is the denominator. -/
theorem fdiv_of_infinite_square (b c : F32) :
    fdiv (fadd (fabs b) (.inf false)) (fadd c (fadd (fabs b) (.inf false))) = nanF := by
  cases b with
  | nan w => rfl
  | inf s =>
    cases c with
    | nan w => rfl
    | inf t => cases t <;> rfl
    | fin t k => rfl
  | fin s m =>
    cases c with
    | nan w => rfl
    | inf t => cases t <;> rfl
    | fin t k => rfl

theorem atanQuotient_of_infinite_square {x : F32} (h : fmul x x = .inf false) : atanQuotient x = nanF := by
  rw [atanQuotient, atanNum, h, fdiv_of_infinite_square]

theorem atanWord_of_not_finite {a : Word} (h : (∃ s, f32 a = .inf s) ∨ f32 a = .nan a) :
    atanWord a = Config.nanResult := by
  rcases h with ⟨s, h⟩ | h
  · refine atanWord_of_quotient_nan (atanQuotient_of_infinite_square ?_)
    rw [h]
    cases s <;> rfl
  · rw [atanWord_eq, h]
    rfl

/-- From 2^64 on the square overflows. -/
theorem atanWord_of_large {a : Word} (h : 0x5F800000 ≤ a.toNat % 2 ^ 31) : atanWord a = Config.nanResult := by
  rcases Nat.lt_or_ge (a.toNat % 2 ^ 31) 0x7F800000 with hfin | hnot
  · obtain ⟨m, e, hm, -, hme, hw, hf⟩ := f32_of_finite hfin
    have he : 190 ≤ e := by omega
    have hx : 2 ^ 213 ≤ m * 2 ^ e := by
      calc 2 ^ 213 = 2 ^ 23 * 2 ^ 190 := by norm_num
        _ ≤ m * 2 ^ e := Nat.mul_le_mul (by omega) (Nat.pow_le_pow_right (by norm_num) he)
    have hsq : 2 ^ 213 * 2 ^ 213 ≤ m * 2 ^ e * (m * 2 ^ e) := Nat.mul_le_mul hx hx
    have hround : roundMag (m * 2 ^ e * (m * 2 ^ e)) unitsPerOne = none := by
      rw [roundMag_overflow_iff unitsPerOne_pos, unitsPerOne]
      exact le_trans (by norm_num) hsq
    refine atanWord_of_quotient_nan (atanQuotient_of_infinite_square ?_)
    rw [hf, fmul_fin, roundF_of_overflow hround, Bool.xor_self]
  · exact atanWord_of_not_finite ((f32_of_not_finite hnot).imp_left fun ⟨h, _⟩ => ⟨_, h⟩)

/-! ## Below 2^64 -/

theorem fabs_roundF (neg : Bool) (n d : Nat) : fabs (roundF neg n d) = roundF false n d := by
  rcases roundF_cases neg n d with ⟨r, hr, h⟩ | ⟨hr, h⟩
  · rw [h, fabs, roundF_of_roundMag hr]
  · rw [h, fabs, roundF_of_overflow hr]

theorem fadd_same_sign (s : Bool) (m k : Nat) : fadd (.fin s m) (.fin s k) = roundF s (m + k) 1 := if_pos rfl

theorem f32_kAtan : f32 Config.kAtan = .fin false (10003029 * 2 ^ 125) := by decide

theorem f32_one : f32 Config.one = .fin false (2 ^ 149) := by decide

theorem f32_kPi2 : f32 Config.kPi2 = .fin false (13176825 * 2 ^ 126) := by decide

/-- Absolute value and square drop the sign of the argument. -/
theorem atanQuotient_fin (s : Bool) (m : Nat) : atanQuotient (.fin s m) = atanQuotient (.fin false m) := by
  simp only [atanQuotient, atanNum, f32_kAtan, fmul_fin, fabs_roundF, Bool.xor_self]

/-- The square of the largest datum below 2^64 rounds to the second largest finite datum. -/
theorem roundMag_largest_square :
    roundMag ((2 ^ 24 - 1) * 2 ^ 189 * ((2 ^ 24 - 1) * 2 ^ 189)) unitsPerOne = some ((2 ^ 24 - 2) * 2 ^ 253) := by
  decide

theorem roundMag_square {m : Nat} (h : m ≤ (2 ^ 24 - 1) * 2 ^ 189) :
    ∃ r, roundMag (m * m) unitsPerOne = some r ∧ r ≤ (2 ^ 24 - 2) * 2 ^ 253 := by
  have hsq := Nat.mul_le_mul h h
  obtain ⟨r, hr, -⟩ := roundMag_of_le (n := m * m) unitsPerOne_pos isMag_largest
    (hsq.trans (by rw [unitsPerOne]; norm_num))
  exact ⟨r, hr, roundMag_mono unitsPerOne_pos hsq hr roundMag_largest_square⟩

/-- Below 2^64 the numerator is finite, and the denominator, if it does not overflow, is no smaller. -/
theorem atanQuotient_of_small {m : Nat} (hm : IsMag m) (h : m ≤ (2 ^ 24 - 1) * 2 ^ 189) :
    ∃ q, atanQuotient (.fin false m) = .fin false q ∧ q ≤ 2 ^ 149 := by
  obtain ⟨b, hb, -, hbm⟩ := roundF_between false (n := 10003029 * 2 ^ 125 * m) unitsPerOne_pos isMag_zero hm
    ((Nat.zero_mul _).trans_le (Nat.zero_le _)) (by rw [unitsPerOne]; omega)
  obtain ⟨x, hx, hxmax⟩ := roundMag_square h
  obtain ⟨n, hn, hnmax⟩ := roundMag_of_le (n := b + x) Nat.one_pos isMag_largest (by omega)
  obtain ⟨c, hc, hc0, -⟩ := roundF_between false (n := 2 ^ 149 + b) Nat.one_pos isMag_one
    (isMag_two_pow (e := 214) (by norm_num)) (by omega) (by omega)
  have hbx : fabs (fmul (f32 Config.kAtan) (.fin false m)) = .fin false b := by
    rw [f32_kAtan, fmul_fin, fabs_roundF, hb]
  have hnum : atanNum (.fin false m) = .fin false n := by
    rw [atanNum, hbx, fmul_of_roundMag hx, Bool.xor_self, fadd_same_sign, roundF_of_roundMag hn]
  rw [atanQuotient, hnum, hbx, f32_one, fadd_same_sign, hc, fadd_same_sign]
  rcases roundF_cases false (c + n) 1 with ⟨k, hk, hf⟩ | ⟨-, hf⟩ <;> rw [hf]
  · have hck := le_of_roundMag Nat.one_pos isMag_one (by omega) hk
    have hnk := le_of_roundMag Nat.one_pos (roundMag_isMag Nat.one_pos hn) (by omega) hk
    rw [fdiv_fin _ _ _ (by omega), Bool.xor_self]
    obtain ⟨q, hq, -, hle⟩ := roundF_between false (n := n * unitsPerOne) (d := k) (by omega) isMag_zero
      isMag_one ((Nat.zero_mul _).trans_le (Nat.zero_le _))
      (by rw [unitsPerOne, Nat.mul_comm]; exact Nat.mul_le_mul_left _ hnk)
    exact ⟨q, hq, hle⟩
  · exact ⟨0, rfl, Nat.zero_le _⟩

/-- Below 2^64 the sign of the argument is the sign of the result, and the other bits do not depend on it. -/
theorem atanWord_of_small {m : Nat} (hm : IsMag m) (h : m ≤ (2 ^ 24 - 1) * 2 ^ 189) :
    ∃ low, ∀ (w : Word) (s : Bool), f32 w = .fin s m → w.getLsbD 31 = s → atanWord w = signed31 s low := by
  obtain ⟨q, hq, hq1⟩ := atanQuotient_of_small hm h
  obtain ⟨r, hr, -⟩ := roundMag_of_le (n := q * (13176825 * 2 ^ 126)) unitsPerOne_pos
    (isMag_of_lt (i := 13176825) (e := 126) (by norm_num) (by norm_num)) (by rw [unitsPerOne]; omega)
  refine ⟨magBits r, fun w s hw hs => ?_⟩
  rw [atanWord_eq, hw, hs, atanQuotient_fin, hq, forSign, Bool.false_or, f32_kPi2, fmul_of_roundMag hr, Bool.xor_false,
    bits]

/-- Settles O36: the two signs of an argument have the same quotient, to which each joins its own sign. -/
theorem atanIsOddBelowTwoTo64 : Obligations.AtanIsOddBelowTwoTo64 := by
  refine fun a => ⟨fun h => ?_, atanWord_of_large⟩
  obtain ⟨m, e, hm, he, hme, hw, hf⟩ := f32_of_finite (w := a) (by omega)
  have hmax : m * 2 ^ e ≤ (2 ^ 24 - 1) * 2 ^ 189 :=
    Nat.mul_le_mul (by omega) (Nat.pow_le_pow_right (by norm_num) (by omega))
  obtain ⟨low, hlow⟩ := atanWord_of_small (isMag_of_f32 hf) hmax
  have ha := hlow a _ hf rfl
  refine ⟨?_, ?_⟩
  · rw [ha, hlow _ _ (f32_xor_sign hf) (getLsbD_xor_sign a), signed31_xor_sign]
  · rw [and_signBit, and_signBit, ha, signed31_sign]

/-- Settles O29: a step of each operation subtracts infinities or divides them, and a NaN stays. -/
theorem nonFiniteArgumentGivesNan : Obligations.NonFiniteArgumentGivesNan := by
  intro a b s h
  have ha := f32_of_exponent_255 h
  rw [exec_sinp, exec_cosp, exec_atan, sinpWord_of_not_finite ha, cospWord_of_not_finite ha, atanWord_of_not_finite ha]
  exact ⟨rfl, rfl, rfl⟩

end Sys2Proof.Machine


/-! # Proofs: ATAN2 and ATAN2V2 (family 42_arctan, rules R153 to R161) -/

namespace Sys2Proof.Machine

/-! ## The precondition (rule R161) -/

theorem toInt_eq_zero_iff {a : Word} : a.toInt = 0 ↔ a = 0 := by
  rw [← BitVec.toInt_inj]
  rfl

theorem atan2IsZero_iff {a b : Word} : atan2IsZero (opS32 a) (opS32 b) = true ↔ a = 0 ∧ b = 0 := by
  rw [atan2IsZero, decide_eq_true_eq, opS32, opS32, toInt_eq_zero_iff, toInt_eq_zero_iff]

theorem atan2IsZero_of_nonzero {a b : Word} (h : ¬ (a = 0 ∧ b = 0)) : atan2IsZero (opS32 a) (opS32 b) = false :=
  Bool.eq_false_iff.2 fun hz => h (atan2IsZero_iff.1 hz)

/-- Settles O39: the precondition is decided before anything is computed. -/
theorem atan2ZeroIsAViolation : Obligations.Atan2ZeroIsAViolation := fun _ => ⟨rfl, rfl⟩

/-! ## The ratio (rule R153) -/

theorem i2f_zero : i2f 0 = .fin false 0 := by
  rw [i2f_exact (by norm_num), Int.natAbs_zero, Nat.zero_mul]
  rfl

/-- An operand other than 0 converts to a datum of magnitude at least 1.0. -/
theorem i2f_nonzero {n : Int} (h : n ≠ 0) (hmax : n.natAbs ≤ 2 ^ 31) :
    ∃ k, i2f n = .fin (decide (n < 0)) k ∧ roundMag (n.natAbs * unitsPerOne) 1 = some k ∧ 2 ^ 149 ≤ k := by
  have hpos : 1 ≤ n.natAbs := Int.natAbs_pos.2 h
  obtain ⟨k, hk, -⟩ := roundMag_of_le (n := n.natAbs * unitsPerOne) Nat.one_pos
    (isMag_two_pow (e := 180) (by norm_num)) (by rw [unitsPerOne]; omega)
  exact ⟨k, i2f_of_roundMag hk, hk,
    le_of_roundMag Nat.one_pos isMag_one (by rw [unitsPerOne]; omega) hk⟩

/-- The smaller operand over the larger one is at most 1.0, since conversion keeps their order. -/
theorem fdiv_i2f_le_one {p r : Int} (hr : r ≠ 0) (hmax : r.natAbs ≤ 2 ^ 31) (hle : p.natAbs ≤ r.natAbs) :
    ∃ m, fdiv (i2f p) (i2f r) = .fin (decide (p < 0) ^^ decide (r < 0)) m ∧ m ≤ 2 ^ 149 := by
  obtain ⟨k, hk, hround, hk1⟩ := i2f_nonzero hr hmax
  obtain ⟨j, hj, hjk⟩ : ∃ j, i2f p = .fin (decide (p < 0)) j ∧ j ≤ k := by
    rcases eq_or_ne p 0 with rfl | hp
    · exact ⟨0, i2f_zero, Nat.zero_le _⟩
    · obtain ⟨j, hj, hround', -⟩ := i2f_nonzero hp (hle.trans hmax)
      exact ⟨j, hj, roundMag_mono Nat.one_pos (Nat.mul_le_mul_right _ hle) hround' hround⟩
  obtain ⟨m, hm, -, hm1⟩ := roundF_between (decide (p < 0) ^^ decide (r < 0)) (n := j * unitsPerOne) (d := k)
    (by omega) isMag_zero isMag_one ((Nat.zero_mul _).trans_le (Nat.zero_le _))
    (by rw [unitsPerOne, Nat.mul_comm]; exact Nat.mul_le_mul_left _ hjk)
  exact ⟨m, by rw [hj, hk, fdiv_fin _ _ _ (by omega), hm], hm1⟩

theorem fdiv_i2f_zero {r : Int} (hr : r ≠ 0) (hmax : r.natAbs ≤ 2 ^ 31) :
    fdiv (i2f 0) (i2f r) = .fin (decide (r < 0)) 0 := by
  obtain ⟨k, hk, -, hk1⟩ := i2f_nonzero hr hmax
  rw [i2f_zero, hk, fdiv_fin _ _ _ (by omega), Nat.zero_mul, roundF_zero _ (by omega), Bool.false_xor]

section
variable {y x : Int} (hne : ¬ (y = 0 ∧ x = 0)) (hy : y.natAbs ≤ 2 ^ 31) (hx : x.natAbs ≤ 2 ^ 31)
include hne hy hx

/-- The ratio of either branch is at most 1.0 and negative where exactly one operand is. -/
theorem a2Ratio_le_one :
    ∃ m, a2Ratio y x = .fin (decide (y < 0) ^^ decide (x < 0)) m ∧ m ≤ 2 ^ 149 := by
  unfold a2Ratio
  split_ifs with h
  · exact fdiv_i2f_le_one (by omega) hx h.le
  · rw [Bool.xor_comm]
    exact fdiv_i2f_le_one (by omega) hy (by omega)

/-- On an axis the ratio is a zero. -/
theorem a2Ratio_axis (h0 : y = 0 ∨ x = 0) : ∃ s, a2Ratio y x = .fin s 0 := by
  unfold a2Ratio
  split_ifs with h
  · obtain rfl : y = 0 := by omega
    exact ⟨_, fdiv_i2f_zero (by omega) hx⟩
  · obtain rfl : x = 0 := by omega
    exact ⟨_, fdiv_i2f_zero (by omega) hy⟩

end

/-! ## The rational functions (rule R154) -/

/-- A rational function that keeps the sign of a ratio and answers less than 448. -/
def StaysBelow448 (rat : F32 → F32) : Prop :=
  ∀ (s : Bool) (m : Nat), m ≤ 2 ^ 149 → ∃ q, rat (.fin s m) = .fin s q ∧ q < 448 * 2 ^ 149

/-- The largest datum below 448. -/
theorem isMag_below_448 : IsMag (14680063 * 2 ^ 134) := isMag_of_lt (by norm_num) (by norm_num)

theorem fdiv_below_448 (s : Bool) {n d : Nat} (hd : 0 < d) (h : n * 2 ^ 149 ≤ 14680063 * 2 ^ 134 * d) :
    ∃ q, fdiv (.fin s n) (.fin false d) = .fin s q ∧ q < 448 * 2 ^ 149 := by
  obtain ⟨q, hq, -, hle⟩ := roundF_between s (n := n * unitsPerOne) hd isMag_zero isMag_below_448
    ((Nat.zero_mul _).trans_le (Nat.zero_le _)) (by rwa [unitsPerOne])
  exact ⟨q, by rw [fdiv_fin _ _ _ hd.ne', Bool.xor_false, hq], by omega⟩

theorem f32_kA2n : f32 Config.kA2n = .fin false (16764355 * 2 ^ 136) := by decide

theorem f32_kA2d : f32 Config.kA2d = .fin false (14979537 * 2 ^ 127) := by decide

theorem f32_k573 : f32 Config.k573 = .fin false (573 * 2 ^ 149) := by decide

theorem f32_k028 : f32 Config.k028 = .fin false (9395241 * 2 ^ 124) := by decide

/-- The product of a datum with one of at most 1.0, and its error. -/
theorem fmul_le_one {a k m : Nat} (hk : IsMag k) (ha : a ≤ k) (hm : m ≤ 2 ^ 149) :
    ∃ n, (∀ s t, fmul (.fin s a) (.fin t m) = .fin (s ^^ t) n) ∧ n ≤ k ∧
      2 ^ 24 * (a * m) ≤ 2 ^ 24 * (n * 2 ^ 149) + a * m + 2 ^ 23 * 2 ^ 149 ∧
      2 ^ 24 * (n * 2 ^ 149) ≤ 2 ^ 24 * (a * m) + a * m + 2 ^ 23 * 2 ^ 149 := by
  obtain ⟨n, hn, hle⟩ := roundMag_of_le (n := a * m) unitsPerOne_pos hk (by
    rw [unitsPerOne]
    exact Nat.mul_le_mul ha hm)
  have herror := roundMag_error unitsPerOne_pos hn
  rw [unitsPerOne] at herror
  exact ⟨n, fun _ _ => fmul_of_roundMag hn, hle, herror⟩

/-- The sum of a positive datum and one that is not negative, and its error downward. -/
theorem fadd_error {a k m : Nat} (ha : IsMag a) (hk : IsMag k) (hle : a + m ≤ k) :
    ∃ n, fadd (.fin false a) (.fin false m) = .fin false n ∧ a ≤ n ∧
      2 ^ 24 * (a + m) ≤ 2 ^ 24 * n + (a + m) + 2 ^ 23 := by
  obtain ⟨n, hn, -⟩ := roundMag_of_le (n := a + m) Nat.one_pos hk (by omega)
  have herror := (roundMag_error Nat.one_pos hn).1
  rw [Nat.mul_one, Nat.mul_one] at herror
  exact ⟨n, by rw [fadd_same_sign, roundF_of_roundMag hn], le_of_roundMag Nat.one_pos ha (by omega) hn, herror⟩

/-- `RAT_V1` grows up to its value at 1.0, 447.66, from which 448 is farther than the roundings reach: the distance of
the exact quadratics is linear in the square of `1.0 - m`. -/
theorem staysBelow448_ratV1 : StaysBelow448 ratV1 := by
  intro s m hm
  obtain ⟨n, hn, -, -, hn'⟩ := fmul_le_one (isMag_of_f32 f32_kA2n) le_rfl hm
  obtain ⟨z, hz, hz1, hz', -⟩ := fmul_le_one isMag_one hm hm
  obtain ⟨d, hd, hd0, hd'⟩ := fadd_error (m := z) (isMag_of_f32 f32_kA2d) (isMag_two_pow (e := 152) (by norm_num))
    (by omega)
  rw [ratV1, f32_kA2n, f32_kA2d, hn, hz, Bool.false_xor, Bool.xor_self, hd]
  refine fdiv_below_448 s (by omega) ?_
  have hsq := sq_nonneg ((2 ^ 149 : Int) - m)
  zify at *
  nlinarith

/-- `RAT_V2` likewise, with the value 447.66 at 1.0. -/
theorem staysBelow448_ratV2 : StaysBelow448 ratV2 := by
  intro s m hm
  obtain ⟨n, hn, -, -, hn'⟩ := fmul_le_one (isMag_of_f32 f32_k573) le_rfl hm
  obtain ⟨z, hz, hz1, hz', -⟩ := fmul_le_one isMag_one hm hm
  obtain ⟨v, hv, hv1, hv', -⟩ := fmul_le_one (isMag_of_f32 f32_k028) le_rfl hz1
  obtain ⟨d, hd, hd0, hd'⟩ := fadd_error (m := v) isMag_one (isMag_two_pow (e := 150) (by norm_num)) (by omega)
  rw [ratV2, f32_k573, f32_one, f32_k028, hn, hz, Bool.false_xor, Bool.xor_self, hv, Bool.xor_self, hd]
  refine fdiv_below_448 s (by omega) ?_
  have hsq := sq_nonneg ((2 ^ 149 : Int) - m)
  zify at *
  nlinarith

/-! ## The truncated value and the angle (rules R153, R157, R160) -/

theorem ftrunc_fin (s : Bool) (m : Nat) : ftrunc (.fin s m) = some (withSign s (m / unitsPerOne)) := rfl

theorem toInt_natAbs_le (a : Word) : a.toInt.natAbs ≤ 2 ^ 31 := by
  have h1 := BitVec.le_toInt a
  have h2 := BitVec.toInt_lt (x := a)
  omega

section
variable {rat : F32 → F32} {a b : Word} (hrat : StaysBelow448 rat) (hne : ¬ (a = 0 ∧ b = 0))
include hrat hne

/-- Away from the origin the rational value is finite, truncates to at most 447 and has the sign of the ratio. -/
theorem ftrunc_rat :
    ∃ q : Nat, q ≤ 447 ∧ ftrunc (rat (a2Ratio a.toInt b.toInt)) =
      some (withSign (decide (a.toInt < 0) ^^ decide (b.toInt < 0)) q) := by
  have hne' : ¬ (a.toInt = 0 ∧ b.toInt = 0) := by rwa [toInt_eq_zero_iff, toInt_eq_zero_iff]
  obtain ⟨m, hm, hm1⟩ := a2Ratio_le_one hne' (toInt_natAbs_le a) (toInt_natAbs_le b)
  obtain ⟨q, hq, hq448⟩ := hrat (decide (a.toInt < 0) ^^ decide (b.toInt < 0)) m hm1
  refine ⟨q / unitsPerOne, ?_, by rw [hm, hq, ftrunc_fin]⟩
  rw [unitsPerOne]
  omega

/-- The angle encoder answers the adjusted value. -/
theorem a2Word_rat :
    ∃ q : Int, ftrunc (rat (a2Ratio a.toInt b.toInt)) = some q ∧
      a2Word rat a b = .ok (BitVec.ofInt 32 (a2Adjust a.toInt b.toInt q)) := by
  obtain ⟨q, -, hq⟩ := ftrunc_rat hrat hne
  exact ⟨_, hq, by rw [a2Word, a2core, opS32, opS32, hq]; rfl⟩

theorem ftrunc_rat_le :
    ∃ q : Int, ftrunc (rat (a2Ratio a.toInt b.toInt)) = some q ∧ -447 ≤ q ∧ q ≤ 447 := by
  obtain ⟨q, hle, hq⟩ := ftrunc_rat hrat hne
  have hmag := withSign_natAbs (decide (a.toInt < 0) ^^ decide (b.toInt < 0)) q
  exact ⟨_, hq, by omega, by omega⟩

end

/-- A ratio is negative where its operands differ in sign. -/
theorem withSign_of_operands (y x : Int) (q : Nat) :
    withSign (decide (y < 0) ^^ decide (x < 0)) q = if (y < 0 ↔ x < 0) then (q : Int) else -q := by
  by_cases hy : y < 0 <;> by_cases hx : x < 0 <;> simp [withSign, hy, hx]

/-- Each quadrant's adjustment goes from its half turn or quarter turn toward the other one. -/
theorem a2Adjust_range {y x : Int} {q : Nat} (hq : q ≤ 447) :
    -1800 ≤ a2Adjust y x (withSign (decide (y < 0) ^^ decide (x < 0)) q) ∧
      a2Adjust y x (withSign (decide (y < 0) ^^ decide (x < 0)) q) ≤ 1800 := by
  rw [withSign_of_operands, a2Adjust]
  split_ifs <;> omega

/-- Settles O41: both rational functions stay below 448. -/
theorem rationalValueIsBelow448 : Obligations.RationalValueIsBelow448 :=
  fun _ _ hne => ⟨ftrunc_rat_le staysBelow448_ratV1 hne, ftrunc_rat_le staysBelow448_ratV2 hne⟩

/-! ## The two operations -/

section
variable {a b : Word} (hne : ¬ (a = 0 ∧ b = 0))
include hne

theorem responseOf_atan2 (rom : Memory) : responseOf rom (.atan2 a b) = a2Word ratV1 a b :=
  if_neg (Bool.eq_false_iff.1 (atan2IsZero_of_nonzero hne))

theorem responseOf_atan2v2 (rom : Memory) : responseOf rom (.atan2v2 a b) = a2Word ratV2 a b :=
  if_neg (Bool.eq_false_iff.1 (atan2IsZero_of_nonzero hne))

theorem exec_atan2 {w : Word} (h : a2Word ratV1 a b = .ok w) (s : State) :
    exec (.atan2 a b) s = .next (accept ⟨5, a, b⟩ w s) := by
  rw [exec, execAtan2, atan2IsZero_of_nonzero hne, h]
  rfl

theorem exec_atan2v2 {w : Word} (h : a2Word ratV2 a b = .ok w) (s : State) :
    exec (.atan2v2 a b) s = .next (accept ⟨6, a, b⟩ w s) := by
  rw [exec, execAtan2v2, atan2IsZero_of_nonzero hne, h]
  rfl

/-- The angle of either encoder lies within half a turn (rule R157). -/
theorem a2Word_range {rat : F32 → F32} (hrat : StaysBelow448 rat) :
    ∃ w, a2Word rat a b = .ok w ∧ -1800 ≤ w.toInt ∧ w.toInt ≤ 1800 := by
  obtain ⟨q, hle, hq⟩ := ftrunc_rat hrat hne
  obtain ⟨hlo, hhi⟩ := a2Adjust_range (y := a.toInt) (x := b.toInt) hle
  refine ⟨_, by rw [a2Word, a2core, opS32, opS32, hq], ?_⟩
  rw [resAngle, BitVec.toInt_ofInt_eq_self (by norm_num) (by omega) (by omega)]
  exact ⟨hlo, hhi⟩

end

/-- Settles O40: at most 447 in the direction that each quadrant's adjustment leaves open. -/
theorem angleIsWithinHalfATurn : Obligations.AngleIsWithinHalfATurn := by
  intro rom a b hne
  rw [responseOf_atan2 hne, responseOf_atan2v2 hne]
  exact ⟨a2Word_range hne staysBelow448_ratV1, a2Word_range hne staysBelow448_ratV2⟩

/-! ## The steps of `A2CORE` in absolute values (rule R153) -/

theorem natAbs_lt_iff_abs (y x : Int) : y.natAbs < x.natAbs ↔ |y| < |x| := by
  rw [Int.abs_eq_natAbs, Int.abs_eq_natAbs, Int.ofNat_lt]

theorem a2Ratio_eq (y x : Int) :
    a2Ratio y x = if |y| < |x| then fdiv (i2f y) (i2f x) else fdiv (i2f x) (i2f y) := by
  simp only [a2Ratio, natAbs_lt_iff_abs]

theorem a2Adjust_eq (y x q : Int) :
    a2Adjust y x q =
      if |y| < |x| then (if x < 0 then (if y < 0 then q - 1800 else q + 1800) else q)
      else (if y < 0 then 900 - q - 1800 else 900 - q) := by
  simp only [a2Adjust, natAbs_lt_iff_abs]

/-- Settles O37: away from the origin the rational value is finite, so the encoder accepts its request. -/
theorem atan2Result : Obligations.Atan2Result := by
  refine ⟨fun s => ⟨_, (atan2ZeroIsAViolation s).1, rfl⟩, fun a b s hne => ?_⟩
  obtain ⟨q, hq, hword⟩ := a2Word_rat staysBelow448_ratV1 hne
  rw [a2Ratio_eq] at hq
  rw [a2Adjust_eq] at hword
  exact ⟨q, hq, exec_atan2 hne hword s⟩

/-- Settles O38: as ATAN2, with `RAT_V2`. -/
theorem atan2v2Result : Obligations.Atan2v2Result := by
  refine ⟨fun s => ⟨_, (atan2ZeroIsAViolation s).2, rfl⟩, fun a b s hne => ?_⟩
  obtain ⟨q, hq, hword⟩ := a2Word_rat staysBelow448_ratV2 hne
  rw [a2Ratio_eq] at hq
  rw [a2Adjust_eq] at hword
  exact ⟨q, hq, exec_atan2v2 hne hword s⟩

/-! ## The axes (rule R155) -/

theorem ratV1_zero (s : Bool) : ratV1 (.fin s 0) = .fin s 0 := by
  cases s <;> decide

theorem ratV2_zero (s : Bool) : ratV2 (.fin s 0) = .fin s 0 := by
  cases s <;> decide

/-- On an axis the ratio and its rational value are zeros, and the angle is the adjustment of 0. -/
theorem a2Word_axis {rat : F32 → F32} (hrat : ∀ s, rat (.fin s 0) = .fin s 0) {a b : Word}
    (hne : ¬ (a = 0 ∧ b = 0)) (h0 : a = 0 ∨ b = 0) :
    a2Word rat a b = .ok (BitVec.ofInt 32 (a2Adjust a.toInt b.toInt 0)) := by
  obtain ⟨s, hs⟩ := a2Ratio_axis (y := a.toInt) (x := b.toInt) (by rwa [toInt_eq_zero_iff, toInt_eq_zero_iff])
    (toInt_natAbs_le a) (toInt_natAbs_le b) (by rwa [toInt_eq_zero_iff, toInt_eq_zero_iff])
  have htrunc : ftrunc (rat (a2Ratio a.toInt b.toInt)) = some 0 := by
    rw [hs, hrat, ftrunc_fin, Nat.zero_div]
    cases s <;> rfl
  rw [a2Word, a2core, opS32, opS32, htrunc]
  rfl

section
variable (rom : Memory) {v : Word} (h : v.toInt ≠ 0)
include h

theorem responseOf_x_axis :
    responseOf rom (.atan2 0 v) = .ok (BitVec.ofInt 32 (a2Adjust 0 v.toInt 0)) ∧
      responseOf rom (.atan2v2 0 v) = .ok (BitVec.ofInt 32 (a2Adjust 0 v.toInt 0)) := by
  have hne : ¬ ((0 : Word) = 0 ∧ v = 0) := fun hv => h (toInt_eq_zero_iff.2 hv.2)
  rw [responseOf_atan2 hne, responseOf_atan2v2 hne]
  exact ⟨a2Word_axis ratV1_zero hne (.inl rfl), a2Word_axis ratV2_zero hne (.inl rfl)⟩

theorem responseOf_y_axis :
    responseOf rom (.atan2 v 0) = .ok (BitVec.ofInt 32 (a2Adjust v.toInt 0 0)) ∧
      responseOf rom (.atan2v2 v 0) = .ok (BitVec.ofInt 32 (a2Adjust v.toInt 0 0)) := by
  have hne : ¬ (v = 0 ∧ (0 : Word) = 0) := fun hv => h (toInt_eq_zero_iff.2 hv.1)
  rw [responseOf_atan2 hne, responseOf_atan2v2 hne]
  exact ⟨a2Word_axis ratV1_zero hne (.inr rfl), a2Word_axis ratV2_zero hne (.inr rfl)⟩

end

theorem a2Adjust_x_axis {x : Int} (h : x ≠ 0) : a2Adjust 0 x 0 = if x < 0 then 1800 else 0 := by
  unfold a2Adjust
  split_ifs <;> omega

theorem a2Adjust_y_axis (y : Int) : a2Adjust y 0 0 = if y < 0 then -900 else 900 := by
  unfold a2Adjust
  split_ifs <;> omega

/-- Settles O42: the angle on an axis is the adjustment of 0 for the sign of the other coordinate. -/
theorem anglesOnTheAxes : Obligations.AnglesOnTheAxes := by
  refine fun rom v => ⟨fun h => ?positive, fun h => ?negative⟩
  case positive =>
    obtain ⟨hx, hx2⟩ := responseOf_x_axis rom h.ne'
    obtain ⟨hy, hy2⟩ := responseOf_y_axis rom h.ne'
    rw [a2Adjust_x_axis h.ne', if_neg h.not_gt] at hx hx2
    rw [a2Adjust_y_axis, if_neg h.not_gt] at hy hy2
    exact ⟨hx, hx2, hy, hy2⟩
  case negative =>
    obtain ⟨hx, hx2⟩ := responseOf_x_axis rom h.ne
    obtain ⟨hy, hy2⟩ := responseOf_y_axis rom h.ne
    rw [a2Adjust_x_axis h.ne, if_pos h] at hx hx2
    rw [a2Adjust_y_axis, if_pos h] at hy hy2
    exact ⟨hx, hx2, hy, hy2⟩

end Sys2Proof.Machine


/-! # Proofs: the constants of rule R17 (family 00_scope) -/

namespace Sys2Proof.Machine

/-! ## When a positive datum is the nearest one to a real number -/

theorem withSign_cast (s : Bool) (m : Nat) : ((withSign s m : Int) : ℝ) = if s then -(m : ℝ) else m := by
  cases s <;> simp [withSign]

/-- `NearestTo` for a positive datum, by the whole number of units that each datum has. -/
theorem nearestTo_of_pos {w : Word} {m : Nat} {x : ℝ} (hw : f32 w = .fin false m)
    (h : ∀ (v : Word) (t : Bool) (k : Nat), f32 v = .fin t k → f32 v ≠ f32 w →
      |(m : ℝ) / 2 ^ 149 - x| < |((withSign t k : Int) : ℝ) / 2 ^ 149 - x|) : NearestTo x w := by
  refine ⟨false, m, hw, fun v t k hv hne => ?_⟩
  have hm : ((withSign false m : Int) : ℝ) = m := by simp [withSign]
  rw [← withSign_cast, ← withSign_cast, hm]
  exact h v t k hv hne

/-- Every other finite datum lies at least a unit of the binade away from a significand above the least one. -/
theorem other_datum_far {v w : Word} {t : Bool} {k j e : Nat} (hw : f32 w = .fin false (j * 2 ^ e)) (hj : 2 ^ 23 < j)
    (hv : f32 v = .fin t k) (hne : f32 v ≠ f32 w) : (2 ^ e : Int) ≤ |withSign t k - j * 2 ^ e| := by
  cases t with
  | false => exact (isMag_of_f32 hv).gap hj fun hk => hne (by rw [hv, hw, hk])
  | true =>
    have h1 : (1 : Int) * 2 ^ e ≤ j * 2 ^ e := mul_le_mul_of_nonneg_right (by omega) (by positivity)
    rw [withSign, if_pos rfl, abs_sub_comm, sub_neg_eq_add, abs_of_nonneg (by positivity)]
    omega

/-- A datum is the nearest one to every number within half a unit of its binade. -/
theorem nearestTo_of_half_unit {w : Word} (j e : Nat) {x : ℝ} (hw : f32 w = .fin false (j * 2 ^ e)) (hj : 2 ^ 23 < j)
    (hx : |(j : ℝ) * 2 ^ e / 2 ^ 149 - x| < 2 ^ e / 2 ^ 150) : NearestTo x w := by
  refine nearestTo_of_pos hw fun v t k hv hne => ?_
  have hfar : (2 ^ e : ℝ) ≤ |((withSign t k : Int) : ℝ) - j * 2 ^ e| := by
    exact_mod_cast other_datum_far hw hj hv hne
  have hscaled : (2 ^ e : ℝ) / 2 ^ 149 ≤ |((withSign t k : Int) : ℝ) / 2 ^ 149 - j * 2 ^ e / 2 ^ 149| := by
    rw [← sub_div, abs_div, abs_of_pos (show (0 : ℝ) < 2 ^ 149 by positivity)]
    gcongr
  have htriangle := abs_sub_le (((withSign t k : Int) : ℝ) / 2 ^ 149) x (j * 2 ^ e / 2 ^ 149)
  have hhalf : (2 ^ e : ℝ) / 2 ^ 149 = 2 ^ e / 2 ^ 150 + 2 ^ e / 2 ^ 150 := by ring
  rw [abs_sub_comm x] at htriangle
  push_cast
  linarith

/-- A datum is the nearest one to its own value. -/
theorem nearestTo_of_exact {w : Word} (m : Nat) {x : ℝ} (hw : f32 w = .fin false m) (hm : m ≠ 0)
    (hx : (m : ℝ) / 2 ^ 149 = x) : NearestTo x w := by
  refine nearestTo_of_pos hw fun v t k hv hne => ?_
  have hother : ((withSign t k : Int) : ℝ) / 2 ^ 149 ≠ x := by
    rw [← hx, Ne, div_left_inj' (by positivity)]
    norm_cast
    rintro hk
    cases t with
    | false => exact hne (by rw [hv, hw, Int.ofNat_inj.1 hk])
    | true =>
      rw [withSign, if_pos rfl] at hk
      omega
  rw [hx, sub_self, abs_zero]
  exact abs_pos.2 (sub_ne_zero.2 hother)

/-! ## The constants -/

theorem nearestTo_invPi : NearestTo (1 / Real.pi) Config.invPi := by
  refine nearestTo_of_half_unit 10680707 124 (by decide) (by norm_num) ?_
  have hlo := Real.pi_gt_d20
  have hhi := Real.pi_lt_d20
  have hbelow : (2 * 10680707 - 1 : ℝ) / 2 ^ 26 < 1 / Real.pi := (lt_div_iff₀ Real.pi_pos).2 (by linarith)
  have habove : 1 / Real.pi < (2 * 10680707 + 1 : ℝ) / 2 ^ 26 := (div_lt_iff₀ Real.pi_pos).2 (by linarith)
  rw [abs_lt]
  push_cast
  constructor <;> linarith

theorem nearestTo_pi1800 : NearestTo (Real.pi / 1800) Config.pi1800 := by
  refine nearestTo_of_half_unit 14992264 116 f32_pi1800 (by norm_num) ?_
  have hlo := Real.pi_gt_d20
  have hhi := Real.pi_lt_d20
  rw [abs_lt]
  push_cast
  constructor <;> linarith

/-- Settles O57: 1/π and π/1800 by bounds of π, the literals by their decimal value. -/
theorem constantsAreTheNearestData : Obligations.ConstantsAreTheNearestData := by
  refine ⟨nearestTo_invPi, ?half, ?c24, ?k3_1, ?k3_6, nearestTo_pi1800, ?k1000, ?kAtan, ?one, ?kPi2, ?kA2n, ?kA2d,
    ?k573, ?k028, ?k1_5, ?k0_5, ?k3, ?kV2a, ?kV2b⟩
  case half => exact nearestTo_of_exact (2 ^ 148) (by decide) (by norm_num) (by norm_num)
  case c24 => exact nearestTo_of_exact _ f32_c24 (by norm_num) (by norm_num)
  case k3_1 => exact nearestTo_of_half_unit 13002342 127 (by decide) (by norm_num) (by norm_num [abs_lt])
  case k3_6 => exact nearestTo_of_half_unit 15099494 127 (by decide) (by norm_num) (by norm_num [abs_lt])
  case k1000 => exact nearestTo_of_exact _ f32_k1000 (by norm_num) (by norm_num)
  case kAtan => exact nearestTo_of_half_unit _ _ f32_kAtan (by norm_num) (by norm_num [abs_lt])
  case one => exact nearestTo_of_exact _ f32_one (by norm_num) (by norm_num)
  case kPi2 => exact nearestTo_of_half_unit _ _ f32_kPi2 (by norm_num) (by norm_num [abs_lt])
  case kA2n => exact nearestTo_of_half_unit _ _ f32_kA2n (by norm_num) (by norm_num [abs_lt])
  case kA2d => exact nearestTo_of_half_unit _ _ f32_kA2d (by norm_num) (by norm_num [abs_lt])
  case k573 => exact nearestTo_of_exact _ f32_k573 (by norm_num) (by norm_num)
  case k028 => exact nearestTo_of_half_unit _ _ f32_k028 (by norm_num) (by norm_num [abs_lt])
  case k1_5 => exact nearestTo_of_exact (3 * 2 ^ 148) (by decide) (by norm_num) (by norm_num)
  case k0_5 => exact nearestTo_of_exact _ f32_k0_5 (by norm_num) (by norm_num)
  case k3 => exact nearestTo_of_exact (3 * 2 ^ 149) (by decide) (by norm_num) (by norm_num)
  case kV2a => exact nearestTo_of_half_unit 11810359 125 (by decide) (by norm_num) (by norm_num [abs_lt])
  case kV2b => exact nearestTo_of_half_unit 10021218 127 (by decide) (by norm_num) (by norm_num [abs_lt])

end Sys2Proof.Machine


/-! # Proofs: the packed word (family 30_encoding, rules R80 to R83; the packing is log entry 1) -/

namespace Sys2Proof.Machine

/-! ## Packing and unpacking are inverse to each other -/

section
variable (r : Request)

theorem packRequest_op : (packRequest r).extractLsb' 0 4 = r.op := by
  apply BitVec.eq_of_getLsbD_eq
  intro i hi
  rw [packRequest, BitVec.getLsbD_extractLsb', BitVec.getLsbD_append, BitVec.getLsbD_append]
  simp [hi]
  omega

theorem packRequest_a : (packRequest r).extractLsb' 4 32 = r.a := by
  apply BitVec.eq_of_getLsbD_eq
  intro i hi
  rw [packRequest, BitVec.getLsbD_extractLsb', BitVec.getLsbD_append, BitVec.getLsbD_append]
  simp [hi, show ¬ (4 + i < 4) by omega, show 4 + i < 36 by omega]

theorem packRequest_b : (packRequest r).extractLsb' 36 32 = r.b := by
  apply BitVec.eq_of_getLsbD_eq
  intro i hi
  rw [packRequest, BitVec.getLsbD_extractLsb', BitVec.getLsbD_append]
  simp [hi, show ¬ (36 + i < 36) by omega]

@[simp] theorem unpackRequest_packRequest : unpackRequest (packRequest r) = r := by
  rw [unpackRequest, packRequest_op, packRequest_a, packRequest_b]

end

@[simp] theorem packRequest_unpackRequest (w : BitVec 68) : packRequest (unpackRequest w) = w := by
  apply BitVec.eq_of_getLsbD_eq
  intro i hi
  simp only [packRequest, unpackRequest]
  rw [BitVec.getLsbD_append, BitVec.getLsbD_append]
  simp only [BitVec.getLsbD_extractLsb']
  split_ifs with h1 h2
  · simp [h2]
  · simp [show i - 4 < 32 by omega, show 4 + (i - 4) = i by omega]
  · simp [show i - 36 < 32 by omega, show 36 + (i - 36) = i by omega]

/-! ## Table words -/

theorem requestOfTableWord_toNat (w : BitVec 68) : requestOfTableWord 68 w.toNat = unpackRequest w := by
  rw [requestOfTableWord, Nat.mod_eq_of_lt w.isLt, BitVec.ofNat_toNat, BitVec.setWidth_eq]

theorem decodeTableWord_eq_some_iff {nbits w : Nat} {i : Instr} :
    decodeTableWord nbits w = some i ↔ decode (requestOfTableWord nbits w) = .ok i := by
  unfold decodeTableWord
  cases decode (requestOfTableWord nbits w) <;> simp

/-- Settles O1: unpacking gives the request back, and decoding the operation. -/
theorem packedWordDecodesToItsInstruction : Obligations.PackedWordDecodesToItsInstruction := by
  intro i _
  rw [decodeTableWord_eq_some_iff, requestOfTableWord_toNat, unpackRequest_packRequest, decode_encode]

/-- Settles O2: a word that decodes is the packing of its request, which is the request of the operation. -/
theorem packedWordIsEncodingOfItsInstruction : Obligations.PackedWordIsEncodingOfItsInstruction := by
  intro w i h
  rw [decodeTableWord_eq_some_iff, requestOfTableWord_toNat] at h
  rw [encode_of_decode h, packRequest_unpackRequest]

/-- Settles O5 by evaluating the decoder on each word. -/
theorem sampleWordsDecode : Obligations.SampleWordsDecode := by
  unfold Obligations.SampleWordsDecode
  decide

end Sys2Proof.Machine


/-! # Proofs: every operation (families 10_state, 30_encoding, 60_exceptions: rules R39, R83, R230 to R232) -/

namespace Sys2Proof.Machine

/-! ## Every request has a response word (rule R230) -/

/-- Over a table of rule R121 every operation has a response word: the table sine is read inside the table, and the
angle encoders truncate a finite value. -/
theorem responseOf_ok {rom : Memory} (h : Memory.wf rom = true) (i : Instr) : ∃ w, responseOf rom i = .ok w := by
  cases i with
  | sinlut a b => exact ⟨_, sinlutWord_of_slut (slut_of_wf h _)⟩
  | coslut a b => exact ⟨_, by rw [responseOf, coslutWord, slut_of_wf h]⟩
  | atan2 a b =>
    by_cases hz : a = 0 ∧ b = 0
    · exact ⟨_, if_pos (atan2IsZero_iff.2 hz)⟩
    · obtain ⟨q, -, hq⟩ := a2Word_rat staysBelow448_ratV1 hz
      exact ⟨_, (responseOf_atan2 hz rom).trans hq⟩
  | atan2v2 a b =>
    by_cases hz : a = 0 ∧ b = 0
    · exact ⟨_, if_pos (atan2IsZero_iff.2 hz)⟩
    · obtain ⟨q, -, hq⟩ := a2Word_rat staysBelow448_ratV2 hz
      exact ⟨_, (responseOf_atan2v2 hz rom).trans hq⟩
  | sinp a b | cosp a b | atan a b | isqrt a b | invsqrt a b | invsqrtv2 a b | mul a b => exact ⟨_, rfl⟩

theorem response_ok {rom : Memory} (h : Memory.wf rom = true) (r : Request) : ∃ w, response rom r = .ok w := by
  unfold response
  cases decode r with
  | ok i => exact responseOf_ok h i
  | error e => exact ⟨_, rfl⟩

theorem exec_of_response {i : Instr} {s : State} {w : Word} (h : responseOf s.rom i = .ok w) :
    exec i s = .next (acceptWith (violationOfInstr i) (encode i) w s) :=
  exec_next_iff.2 ⟨w, h, rfl⟩

/-- A request that has a response word is accepted with it. -/
theorem acceptRequest_of_response {r : Request} {s : State} {w : Word} (h : response s.rom r = .ok w) :
    acceptRequest r s = .next (acceptWith (violationOf r) r w s) := by
  rw [acceptRequest_next_iff]
  unfold response at h
  unfold violationOf
  cases hd : decode r with
  | ok i =>
    rw [hd] at h
    exact .inl ⟨i, w, rfl, h, by rw [encode_of_decode hd]⟩
  | error e =>
    obtain ⟨op⟩ := e
    rw [hd] at h
    cases h
    exact .inr ⟨op, rfl, acceptWith_some ..⟩

/-- A reserved code is answered with its open word (rule R84). -/
theorem response_of_reserved {r : Request} (h : 10 < r.op.toNat) (rom : Memory) :
    response rom r = .ok (Config.reservedOpResult r.op r.a r.b) := by
  rw [response, decode_of_reserved h]

theorem violationOf_of_reserved {r : Request} (h : 10 < r.op.toNat) : violationOf r = some (.reservedOp r.op) := by
  rw [violationOf, decode_of_reserved h]

/-- Settles O23: every response word exists, and acceptance appends it with the record of the violation. -/
theorem everyRequestIsAnswered : Obligations.EveryRequestIsAnswered := by
  refine ⟨fun i s h => ?operation, fun r s h => ?request⟩
  case operation =>
    obtain ⟨w, hw⟩ := responseOf_ok h i
    exact ⟨w, hw, exec_of_response hw⟩
  case request =>
    obtain ⟨w, hw⟩ := response_ok h r
    exact ⟨w, hw, acceptRequest_of_response hw⟩

/-! ## Frame and noninterference (rules R39, R83) -/

/-- Settles O24: an operation only accepts its request. -/
theorem operationsChangeNothingElse : Obligations.OperationsChangeNothingElse := by
  intro i s t h
  obtain ⟨w, -, rfl⟩ := exec_next_iff.1 h
  refine ⟨rfl, fun _ => rfl, rfl, rfl, rfl, rfl, rfl, rfl, rfl, ⟨w, rfl⟩, fun hv => ?_⟩
  rw [hv, acceptWith_none]
  exact ⟨rfl, rfl⟩

/-- Settles O25: the word is a function of the ROM and the operation. -/
theorem responseDependsOnlyOnItsRequest : Obligations.ResponseDependsOnlyOnItsRequest := by
  intro i s s' t hrom h
  obtain ⟨w, hw, rfl⟩ := exec_next_iff.1 h
  exact ⟨⟨encode i, w⟩, _, exec_of_response (hrom ▸ hw), rfl, rfl⟩

/-- The operand form S16 reads the low half of its word. -/
theorem opS16_congr {a a' : Word} (h : a.toNat % 2 ^ 16 = a'.toNat % 2 ^ 16) : opS16 a = opS16 a' := by
  have hhalf : BitVec.ofNat 16 a.toNat = BitVec.ofNat 16 a'.toNat :=
    BitVec.eq_of_toNat_eq (by rwa [BitVec.toNat_ofNat, BitVec.toNat_ofNat])
  rw [opS16_eq_ofNat_toInt, opS16_eq_ofNat_toInt, hhalf]

/-- Settles O26: the ignored words do not occur in the response, and the halves are read by S16 alone. -/
theorem ignoredBitsDoNotMatter : Obligations.IgnoredBitsDoNotMatter := by
  intro rom a a' b b'
  refine ⟨rfl, rfl, rfl, rfl, rfl, rfl, fun ha => ⟨?_, ?_, fun hb => ?_⟩⟩
  · rw [responseOf, responseOf, sinlutWord, sinlutWord, opS16_congr ha]
  · rw [responseOf, responseOf, coslutWord, coslutWord, opS16_congr ha]
  · rw [responseOf, responseOf, mulWord, mulWord, opS16_congr ha, opS16_congr hb]

end Sys2Proof.Machine


/-! # Proofs: the clock edge (families 10_state, 20_memory, 70_reset: rules R35 to R42, R65, R250 to R257) -/

namespace Sys2Proof.Machine

/-! ## The states of an edge before its outputs: what taking a response leaves, and the hold -/

section
variable (p : Pins) (s : State)

@[simp] theorem beforeAccept_rom : (beforeAccept p s).rom = s.rom := takeResponse_rom p (advance s)
@[simp] theorem beforeAccept_inflight : (beforeAccept p s).inflight = (takeResponse p s).inflight :=
  takeResponse_advance_inflight p s
@[simp] theorem beforeAccept_faulted : (beforeAccept p s).faulted = s.faulted := takeResponse_faulted p (advance s)
@[simp] theorem beforeAccept_violations : (beforeAccept p s).violations = s.violations :=
  takeResponse_violations p (advance s)
@[simp] theorem beforeAccept_age : (beforeAccept p s).age = (takeResponse p s).age := takeResponse_advance_age p s
@[simp] theorem beforeAccept_pending : (beforeAccept p s).pending = none := rfl
@[simp] theorem beforeAccept_taken : (beforeAccept p s).taken = (takeResponse p s).taken :=
  takeResponse_advance_taken p s
@[simp] theorem beforeAccept_schedule : (beforeAccept p s).schedule = s.schedule.tail :=
  takeResponse_schedule p (advance s)

@[simp] theorem withoutAccept_rom : (withoutAccept p s).rom = s.rom := takeResponse_rom p (advance s)
@[simp] theorem withoutAccept_inflight : (withoutAccept p s).inflight = (takeResponse p s).inflight :=
  takeResponse_advance_inflight p s
@[simp] theorem withoutAccept_faulted : (withoutAccept p s).faulted = s.faulted := takeResponse_faulted p (advance s)
@[simp] theorem withoutAccept_age : (withoutAccept p s).age = (takeResponse p s).age := takeResponse_advance_age p s
@[simp] theorem withoutAccept_pending :
    (withoutAccept p s).pending = if p.reqValid then some p.req else none := rfl
@[simp] theorem withoutAccept_taken : (withoutAccept p s).taken = (takeResponse p s).taken :=
  takeResponse_advance_taken p s
@[simp] theorem withoutAccept_schedule : (withoutAccept p s).schedule = s.schedule.tail :=
  takeResponse_schedule p (advance s)

end

theorem takeResponse_of_not_offered (p : Pins) {s : State} (h : s.rspValid = false) : takeResponse p s = s :=
  takeResponse_of_not_taken p s (by rw [h, Bool.false_and])

/-! ## The two conditions of an edge: room, and the host's hold (rules R37, R38) -/

theorem reqReady_iff {p : Pins} {s : State} :
    reqReady Config.maxInflight p s = true ↔ p.rst = false ∧ s.inflight.length < Config.maxInflight := by
  rw [reqReady, Bool.and_eq_true, hasRoom_maxInflight_iff, Bool.not_eq_true']

theorem keepsHold_iff {pending : Option Request} {p : Pins} :
    keepsHold pending p = true ↔ ∀ r, pending = some r → p.reqValid = true ∧ p.req = r := by
  cases pending <;> simp [keepsHold]

/-! ## All that one step can do -/

/-- A step that answers a next state resets, accepts the request offered with its response word, or does neither. -/
theorem step_cases {s t : State} (h : step s = .next t) :
    ((nextPins s).rst = true ∧ t = resetEdge (timing s.draws).idleWord (nextPins s) (advance s)) ∨
    ((nextPins s).reqValid = true ∧ reqReady Config.maxInflight (nextPins s) s = true ∧
      ∃ w, response s.rom (nextPins s).req = .ok w ∧
        t = offerResponse (timing s.draws)
          (acceptWith (violationOf (nextPins s).req) (nextPins s).req w (beforeAccept (nextPins s) s))) ∨
    ((nextPins s).rst = false ∧
      ((nextPins s).reqValid && reqReady Config.maxInflight (nextPins s) s) = false ∧
      t = offerResponse (timing s.draws) (withoutAccept (nextPins s) s)) := by
  obtain ⟨-, ⟨hr, rfl⟩ | ⟨hr, hv, hroom, u, hu, rfl⟩ | ⟨hr, hno, rfl⟩⟩ := edge_next_iff.1 h
  · exact .inl ⟨hr, rfl⟩
  · obtain ⟨w, hw, rfl⟩ := acceptRequest_accepts hu
    rw [beforeAccept_rom] at hw
    exact .inr (.inl ⟨hv, reqReady_iff.2 ⟨hr, (hasRoom_maxInflight_iff s).1 hroom⟩, w, hw, rfl⟩)
  · refine .inr (.inr ⟨hr, ?_, rfl⟩)
    have hroom : reqReady Config.maxInflight (nextPins s) s = hasRoom (timing s.draws).capacity s := by
      rw [reqReady, hr]
      rfl
    rcases hno with hv | hroom' <;> simp [*]

theorem step_of_reset {s : State} (hk : keepsHold s.pending (nextPins s) = true) (hr : (nextPins s).rst = true) :
    step s = .next (resetEdge (timing s.draws).idleWord (nextPins s) (advance s)) :=
  edge_next_iff.2 ⟨hk, .inl ⟨hr, rfl⟩⟩

/-- An edge at which a request is offered and there is room runs its acceptance, then sets the outputs. -/
theorem step_of_accepting {s : State} (hk : keepsHold s.pending (nextPins s) = true)
    (hv : (nextPins s).reqValid = true) (hready : reqReady Config.maxInflight (nextPins s) s = true) :
    step s = thenOffer (timing s.draws) (acceptRequest (nextPins s).req (beforeAccept (nextPins s) s)) := by
  have hr : (nextPins s).rst = false := (reqReady_iff.1 hready).1
  have hready' : ((nextPins s).reqValid && reqReady (timing s.draws).capacity (nextPins s) s) = true := by
    rw [hv, Bool.true_and]
    exact hready
  rw [step, edge, if_pos hk, if_neg (Bool.eq_false_iff.1 hr), if_pos hready']

theorem step_of_response {s : State} {w : Word} (hk : keepsHold s.pending (nextPins s) = true)
    (hv : (nextPins s).reqValid = true) (hready : reqReady Config.maxInflight (nextPins s) s = true)
    (hw : response s.rom (nextPins s).req = .ok w) :
    step s = .next (offerResponse (timing s.draws)
      (acceptWith (violationOf (nextPins s).req) (nextPins s).req w (beforeAccept (nextPins s) s))) := by
  rw [step_of_accepting hk hv hready, acceptRequest_of_response (by rwa [beforeAccept_rom]), thenOffer]

theorem step_of_not_accepting {s : State} (hk : keepsHold s.pending (nextPins s) = true)
    (hr : (nextPins s).rst = false)
    (hno : ((nextPins s).reqValid && reqReady Config.maxInflight (nextPins s) s) = false) :
    step s = .next (offerResponse (timing s.draws) (withoutAccept (nextPins s) s)) := by
  rw [step, edge, if_pos hk, if_neg (Bool.eq_false_iff.1 hr)]
  exact if_neg (Bool.eq_false_iff.1 hno)

/-! ## Acceptance (rules R35, R37, R84) -/

/-- Settles O6: acceptance of a request that decodes is the execution of the operation. -/
theorem stepRunsTheDecodedInstruction : Obligations.StepRunsTheDecodedInstruction := by
  intro s i hk hv hready hd
  rw [step_of_accepting hk hv hready, acceptRequest, hd]
  change thenOffer _ (exec i (beforeAccept (nextPins s) s)) = match exec i (beforeAccept (nextPins s) s) with
    | .next t => _
    | .fault f => _
    | .refused r => _
  cases exec i (beforeAccept (nextPins s) s) <;> rfl

/-- After a word is placed there is room for its request. -/
theorem withFetchWord_ready (s : State) (nbits w : Nat) :
    reqReady Config.maxInflight (nextPins (s.withFetchWord nbits w)) (s.withFetchWord nbits w) = true := by
  refine reqReady_iff.2 ⟨rfl, ?_⟩
  have hinflight : (s.withFetchWord nbits w).inflight = if hasRoom Config.maxInflight s then s.inflight else [] := rfl
  rw [hinflight]
  split_ifs with hroom
  · exact (hasRoom_maxInflight_iff s).1 hroom
  · exact Nat.succ_pos _

/-- Settles O7: the placed word is offered at the next edge, at which no response is taken. -/
theorem placedWordRunsNext : Obligations.PlacedWordRunsNext := by
  intro s nbits w i h
  have hd : decode (nextPins (s.withFetchWord nbits w)).req = .ok i := decodeTableWord_eq_some_iff.1 h
  have htaken : takeResponse (nextPins (s.withFetchWord nbits w)) (s.withFetchWord nbits w) = s.withFetchWord nbits w :=
    takeResponse_of_not_taken _ _ (Bool.and_false _)
  refine ⟨beforeAccept (nextPins (s.withFetchWord nbits w)) (s.withFetchWord nbits w), ?_, ?_, ?_, ?_⟩
  · rw [beforeAccept_rom]
    rfl
  · rw [beforeAccept_faulted]
    rfl
  · rw [beforeAccept_taken, htaken]
    rfl
  · rw [step_of_accepting rfl rfl (withFetchWord_ready s nbits w), acceptRequest, hd]
    rfl

/-- Settles O8: a reserved code names no operation, and its acceptance raises the violation. -/
theorem reservedCodeIsAcceptedAndAnswered : Obligations.ReservedCodeIsAcceptedAndAnswered := by
  intro s hk hv hready hop
  have hcode : 10 < (nextPins s).req.op.toNat := by omega
  refine ⟨fun i hi => ?_, _, step_of_response hk hv hready (response_of_reserved hcode s.rom), ?_⟩
  · rw [decode_of_reserved hcode] at hi
    cases hi
  · simp [violationOf_of_reserved hcode]

/-- Settles O12: an edge accepts exactly where `req_ready` is 1, and every request has a response word. -/
theorem onlyResetOrAFullListKeepsARequestOut : Obligations.OnlyResetOrAFullListKeepsARequestOut := by
  refine ⟨fun p s => reqReady_iff, fun s hwf hk hv hr hroom => ?accepted, fun s t h hr hno => ?keptOut⟩
  case accepted =>
    obtain ⟨w, hw⟩ := response_ok hwf (nextPins s).req
    exact ⟨_, w, step_of_response hk hv (reqReady_iff.2 ⟨hr, hroom⟩) hw, hw, by simp⟩
  case keptOut =>
    rcases step_cases h with ⟨hrst, -⟩ | ⟨hv, hready, -⟩ | ⟨-, -, rfl⟩
    · rw [hr] at hrst
      cases hrst
    · exact absurd ⟨hv, (reqReady_iff.1 hready).2⟩ hno
    · simp

/-! ## Reset (rules R250, R251) -/

/-- Settles O9: the reset edge by its fields; without a request an empty block only draws a word for `rsp_r`. -/
theorem resetEdgeEmptiesTheBlock : Obligations.ResetEdgeEmptiesTheBlock := by
  refine ⟨fun s hk hr => ⟨_, step_of_reset hk hr, rfl, rfl, rfl, rfl, rfl, rfl, fun p hp => ?_, fun p hp => ?_⟩,
    fun s t h hi hv hreq => ?_⟩
  · rw [reqReady, hp]
    rfl
  · exact reqReady_iff.2 ⟨hp, by simp [Config.maxInflight]⟩
  · rcases step_cases h with ⟨-, rfl⟩ | ⟨hreq', -⟩ | ⟨-, -, rfl⟩
    · exact ⟨rfl, rfl⟩
    · rw [hreq] at hreq'
      cases hreq'
    · have htake := takeResponse_of_not_offered (nextPins s) hv
      rw [offerResponse_of_empty _ (by simp [htake, hv]) (by simp [htake, hi])]
      simp [htake, hi, hv]

/-- A next state of a reset edge. -/
theorem eq_resetEdge {s t : State} (h : step s = .next t) (hr : (nextPins s).rst = true) :
    t = resetEdge (timing s.draws).idleWord (nextPins s) (advance s) := by
  rcases step_cases h with ⟨-, h⟩ | ⟨-, hready, -⟩ | ⟨hr', -⟩
  · exact h
  · exact absurd (reqReady_iff.1 hready).1 (by simp [hr])
  · exact absurd hr' (by simp [hr])

/-- Settles O10: a reset edge leaves an empty list, which a second one keeps and in which there is room. -/
theorem oneResetEdgeIsComplete : Obligations.OneResetEdgeIsComplete := by
  refine ⟨fun s t u hr h hr' h' => ?second, fun s t hwf hr h hk hr' hv => ?accepted⟩
  case second =>
    rw [eq_resetEdge h' hr', eq_resetEdge h hr]
    exact ⟨rfl, rfl, rfl, rfl, rfl, rfl, rfl⟩
  case accepted =>
    have ht := eq_resetEdge h hr
    have hrom : t.rom = s.rom := by rw [ht]; rfl
    have hi : t.inflight = [] := by rw [ht]; rfl
    have hvalid : t.rspValid = false := by rw [ht]; rfl
    obtain ⟨w, hw⟩ := response_ok (hrom ▸ hwf) (nextPins t).req
    have hready : reqReady Config.maxInflight (nextPins t) t = true :=
      reqReady_iff.2 ⟨hr', by simp [hi, Config.maxInflight]⟩
    refine ⟨_, w, step_of_response hk hv hready hw, ?_⟩
    simp [takeResponse_of_not_offered _ hvalid, hi]

/-! ## Fields that only some edges change -/

/-- Settles O21 for each of the three kinds of edge. -/
theorem noStepChangesTheRom : Obligations.NoStepChangesTheRom := by
  intro s t h
  have hrom : t.rom = s.rom := by
    rcases step_cases h with ⟨-, rfl⟩ | ⟨-, -, w, -, rfl⟩ | ⟨-, -, rfl⟩ <;> simp
  exact ⟨hrom, fun i => by rw [hrom]⟩

/-- Settles O17: only acceptance of a violating request sets the bit, and reset accepts nothing. -/
theorem faultedIsSetByViolationsAndNeverCleared : Obligations.FaultedIsSetByViolationsAndNeverCleared := by
  intro s t h
  rcases step_cases h with ⟨hr, rfl⟩ | ⟨hv, hready, w, -, rfl⟩ | ⟨-, hno, rfl⟩
  · simp [reqReady, hr]
  · simp [hv, hready]
  · simp [hno]

/-- Settles O18: over a table of rule R121 acceptance answers a next state, and no other part of an edge stops. -/
theorem stepStopsOnlyWhenTheHostBreaksItsHold : Obligations.StepStopsOnlyWhenTheHostBreaksItsHold := by
  refine ⟨fun s hwf hhold => ?goesOn, fun s r hp hbroken => ?refused, fun s t h => ?holds⟩
  case goesOn =>
    have hk := keepsHold_iff.2 hhold
    cases hr : (nextPins s).rst with
    | true => exact ⟨_, step_of_reset hk hr⟩
    | false =>
      cases hacc : (nextPins s).reqValid && reqReady Config.maxInflight (nextPins s) s with
      | true =>
        obtain ⟨hv, hready⟩ := Bool.and_eq_true_iff.1 hacc
        obtain ⟨w, hw⟩ := response_ok hwf (nextPins s).req
        exact ⟨_, step_of_response hk hv hready hw⟩
      | false => exact ⟨_, step_of_not_accepting hk hr hacc⟩
  case refused =>
    have hk : ¬ keepsHold s.pending (nextPins s) = true := fun hk => hbroken (keepsHold_iff.1 hk r hp)
    rw [step, edge, if_neg hk]
  case holds =>
    rcases step_cases h with ⟨hr, rfl⟩ | ⟨hv, hready, w, -, rfl⟩ | ⟨-, hno, rfl⟩
    · simp [reqReady, hr]
    · simp [hready]
    · cases hv : (nextPins s).reqValid
      · simp [hv]
      · rw [hv, Bool.true_and] at hno
        simp [hv, hno]

end Sys2Proof.Machine


/-! # Proofs: the invariant, and runs (families 10_state, 20_memory, 70_reset: rules R30, R36 to R39, R65, R232) -/

namespace Sys2Proof.Machine

/-! ## The parts of an edge keep the invariant -/

/-- Settles O20: nothing is in flight, taken or recorded, and the ROM is the reference table. -/
theorem resetStateSatisfiesTheInvariant : Obligations.ResetStateSatisfiesTheInvariant where
  romWf := reset_rom_wf
  room := Nat.zero_le _
  offered := nofun
  answered := nofun
  delivered := nofun
  waits := Nat.succ_pos _
  idle := fun _ => rfl
  recorded := rfl
  genuine := nofun
  unspecified := nofun

section
variable {s : State} (hs : Inv s)
include hs

/-- The invariant does not speak of what the host holds, of the schedule, or of the draws. -/
theorem Inv.hostSide (pending : Option Request) (schedule : List Pins) (draws : Nat) :
    Inv { s with pending := pending, schedule := schedule, draws := draws } :=
  ⟨hs.romWf, hs.room, hs.offered, hs.answered, hs.delivered, hs.waits, hs.idle, hs.recorded, hs.genuine,
    hs.unspecified⟩

/-- Taking a response does nothing, or moves the oldest transaction to the history (rules R35, R36). -/
theorem Inv.takeResponse_cases (p : Pins) :
    ((s.rspValid && p.rspReady) = false ∧ takeResponse p s = s) ∨
      ((s.rspValid && p.rspReady) = true ∧ ∃ t ts, s.inflight = t :: ts ∧
        takeResponse p s = { s with inflight := ts, rspValid := false, age := 0, taken := s.taken ++ [t] }) := by
  cases htake : s.rspValid && p.rspReady with
  | false => exact .inl ⟨rfl, takeResponse_of_not_taken p s htake⟩
  | true =>
    obtain ⟨t, ts, hi, hw⟩ := hs.offered (Bool.and_eq_true_iff.1 htake).1
    exact .inr ⟨rfl, t, ts, hi, by rw [takeResponse_of_taken p s htake hi, hw]⟩

/-- Taking a response keeps the transactions in their order. -/
theorem Inv.takeResponse_history (p : Pins) :
    (takeResponse p s).taken ++ (takeResponse p s).inflight = s.taken ++ s.inflight := by
  rcases hs.takeResponse_cases p with ⟨-, h⟩ | ⟨-, t, ts, hi, h⟩
  · rw [h]
  · simp [h, hi]

theorem Inv.takeResponse (p : Pins) : Inv (takeResponse p s) := by
  have hhistory := hs.takeResponse_history p
  rcases hs.takeResponse_cases p with ⟨-, h⟩ | ⟨-, t, ts, hi, h⟩
  · rwa [h]
  rw [h] at hhistory ⊢
  have hanswered := hs.answered
  have hroom := hs.room
  rw [hi] at hanswered hroom
  exact {
    romWf := hs.romWf
    room := (Nat.le_succ _).trans hroom
    offered := nofun
    answered := fun x hx => hanswered x (List.mem_cons_of_mem t hx)
    delivered := fun x hx => (List.mem_append.1 hx).elim (hs.delivered x) fun hx =>
      List.mem_singleton.1 hx ▸ hanswered t List.mem_cons_self
    waits := Nat.succ_pos _
    idle := fun _ => rfl
    recorded := hs.recorded
    genuine := hs.genuine
    unspecified := fun x hx => hs.unspecified x (hhistory ▸ hx) }

/-- Accepting a request with its own response word and the record of its violation (rules R37, R39, R232). -/
theorem Inv.acceptWith {r : Request} {w : Word} (hroom : s.inflight.length < Config.maxInflight)
    (hw : response s.rom r = .ok w) : Inv (acceptWith (violationOf r) r w s) where
  romWf := hs.romWf
  room := by simpa using hroom
  offered := fun hv => by
    obtain ⟨t, ts, hi, ht⟩ := hs.offered hv
    exact ⟨t, ts ++ [⟨r, w⟩], by rw [acceptWith_inflight, hi, List.cons_append], ht⟩
  answered := fun x hx => (List.mem_append.1 hx).elim (hs.answered x) fun hx => List.mem_singleton.1 hx ▸ hw
  delivered := hs.delivered
  waits := hs.waits
  idle := fun h => absurd h (by simp)
  recorded := by
    have h := hs.recorded
    cases hv : violationOf r <;> simp [h]
  genuine := fun v hv => by
    cases hc : violationOf r with
    | none => exact hs.genuine v (by simpa [hc] using hv)
    | some c =>
      rw [hc, acceptWith_some, raiseViolation_violations, List.mem_append, List.mem_singleton] at hv
      rcases hv with hv | rfl
      · exact hs.genuine v hv
      · exact hc
  unspecified := fun x hx hopen => by
    rw [acceptWith_taken, acceptWith_inflight, ← List.append_assoc, List.mem_append, List.mem_singleton] at hx
    rw [acceptWith_faulted, Bool.or_eq_true]
    rcases hx with hx | rfl
    · exact .inl (hs.unspecified x hx hopen)
    · exact .inr hopen

/-- Setting the outputs offers the oldest transaction's word or counts one edge more within the bound (rules R36,
R38). -/
theorem Inv.offerResponse {τ : Timing} (hτ : τ.latency = Config.latency) : Inv (offerResponse τ s) := by
  cases hv : s.rspValid with
  | true => rwa [offerResponse_of_offered τ hv]
  | false =>
    cases hi : s.inflight with
    | nil =>
      rw [offerResponse_of_empty τ hv hi]
      exact { hs with offered := fun h => absurd (hv.symm.trans h) Bool.false_ne_true }
    | cons t ts =>
      rcases offerResponse_of_waiting τ hv hi with h | ⟨hage, h⟩ <;> rw [h]
      · exact { hs with offered := fun _ => ⟨t, ts, hi, rfl⟩ }
      · exact { hs with
          offered := fun h => absurd (hv.symm.trans h) Bool.false_ne_true
          waits := hτ ▸ hage
          idle := fun h => nomatch hi.symm.trans h }

/-- A reset edge empties the block and keeps the records of violations (rule R250). -/
theorem Inv.resetEdge (idle : Word) (p : Pins) : Inv (resetEdge idle p s) where
  romWf := hs.romWf
  room := Nat.zero_le _
  offered := nofun
  answered := nofun
  delivered := nofun
  waits := Nat.succ_pos _
  idle := fun _ => rfl
  recorded := hs.recorded
  genuine := hs.genuine
  unspecified := nofun

theorem Inv.advance : Inv (advance s) := hs.hostSide _ _ _

theorem Inv.beforeAccept (p : Pins) : Inv (beforeAccept p s) :=
  (hs.advance.takeResponse p).hostSide _ _ _

theorem Inv.withoutAccept (p : Pins) : Inv (withoutAccept p s) :=
  (hs.advance.takeResponse p).hostSide _ _ _

theorem Inv.takeResponse_length_le (p : Pins) : (Machine.takeResponse p s).inflight.length ≤ s.inflight.length := by
  rcases hs.takeResponse_cases p with ⟨-, h⟩ | ⟨-, t, ts, hi, h⟩
  · rw [h]
  · simp [h, hi]

end

/-- Settles O19: each of the three kinds of edge is made of parts that keep the invariant. -/
theorem stepKeepsTheInvariant : Obligations.StepKeepsTheInvariant := by
  intro s t hs h
  rcases step_cases h with ⟨-, rfl⟩ | ⟨-, hready, w, hw, rfl⟩ | ⟨-, -, rfl⟩
  · exact hs.advance.resetEdge _ _
  · refine ((hs.beforeAccept _).acceptWith ?_ (by rwa [beforeAccept_rom])).offerResponse rfl
    rw [beforeAccept_inflight]
    exact (hs.takeResponse_length_le _).trans_lt (reqReady_iff.1 hready).2
  · exact (hs.withoutAccept _).offerResponse rfl

/-! ## An edge without reset -/

/-- What stands in the block before the outputs of an edge are set: what taking a response left, and the transactions
that join. -/
structure JoinsAtEdge (s u : State) (new : List Transaction) : Prop where
  inflight : u.inflight = (takeResponse (nextPins s) s).inflight ++ new
  taken : u.taken = (takeResponse (nextPins s) s).taken
  rspValid : u.rspValid = (takeResponse (nextPins s) s).rspValid
  age : u.age = (takeResponse (nextPins s) s).age
  requests : new.map (·.req) = acceptedAt s
  responses : ∀ x ∈ new, response s.rom x.req = .ok x.rsp

/-- An edge without reset takes a response, lets the accepted request join, and sets the outputs. -/
theorem step_of_not_reset {s t : State} (h : step s = .next t) (hr : (nextPins s).rst = false) :
    ∃ u new, JoinsAtEdge s u new ∧ t = offerResponse (timing s.draws) u := by
  rcases step_cases h with ⟨hrst, -⟩ | ⟨hv, hready, w, hw, rfl⟩ | ⟨-, hno, rfl⟩
  · rw [hr] at hrst
    cases hrst
  · refine ⟨_, [⟨(nextPins s).req, w⟩], ?_, rfl⟩
    constructor <;> simp [acceptedAt, hv, hready, hw]
  · refine ⟨_, [], ?_, rfl⟩
    constructor <;> simp [acceptedAt, hno]

section
variable {s t : State} (hs : Inv s) (h : step s = .next t) (hr : (nextPins s).rst = false)
include hs h hr

/-- Rule R65 at one edge: the accepted request joins the history at the end. -/
theorem step_history :
    ∃ new : List Transaction, t.taken ++ t.inflight = s.taken ++ s.inflight ++ new ∧
      new.map (·.req) = acceptedAt s ∧ ∀ x ∈ new, response s.rom x.req = .ok x.rsp := by
  obtain ⟨u, new, hu, rfl⟩ := step_of_not_reset h hr
  refine ⟨new, ?_, hu.requests, hu.responses⟩
  rw [offerResponse_taken, offerResponse_inflight, hu.taken, hu.inflight, ← List.append_assoc,
    hs.takeResponse_history]

/-- At most one transaction leaves, exactly where a response was offered and wanted. -/
theorem step_taken :
    ∃ gone : List Transaction, t.taken = s.taken ++ gone ∧ gone.length ≤ 1 ∧
      (gone ≠ [] ↔ s.rspValid = true ∧ (nextPins s).rspReady = true) := by
  obtain ⟨u, new, hu, rfl⟩ := step_of_not_reset h hr
  rw [offerResponse_taken, hu.taken, ← Bool.and_eq_true_iff]
  rcases hs.takeResponse_cases (nextPins s) with ⟨hno, htake⟩ | ⟨hyes, x, xs, -, htake⟩
  · exact ⟨[], by rw [htake, List.append_nil], Nat.zero_le _, by simp [hno]⟩
  · exact ⟨[x], by rw [htake], le_rfl, by simp [hyes]⟩

end

/-- An accepted request is the one offered. -/
theorem mem_acceptedAt {s : State} {r : Request} (h : r ∈ acceptedAt s) :
    r = (nextPins s).req ∧ (nextPins s).reqValid = true := by
  unfold acceptedAt at h
  split_ifs at h with hacc
  · exact ⟨List.mem_singleton.1 h, (Bool.and_eq_true_iff.1 hacc).1⟩
  · cases h

theorem acceptedAt_length_le (s : State) : (acceptedAt s).length ≤ 1 := by
  unfold acceptedAt
  split_ifs <;> simp

/-- Settles O15: the accepted request joins at the end, and a response wanted leaves at the front. -/
theorem responsesLeaveInAcceptanceOrder : Obligations.ResponsesLeaveInAcceptanceOrder := by
  intro s t hs h hr
  obtain ⟨new, hhistory, hreq, hresp⟩ := step_history hs h hr
  refine ⟨⟨new, hhistory, ?_, fun x hx => ?_⟩, step_taken hs h hr⟩
  · have hlen := acceptedAt_length_le s
    rwa [← hreq, List.length_map] at hlen
  · obtain ⟨hx1, hx2⟩ := mem_acceptedAt (hreq ▸ List.mem_map_of_mem hx)
    exact ⟨hx1, hx2, hresp x hx⟩

/-- Settles O22: without reset the history only grows, and a reset edge empties it with the block. -/
theorem onlyResetAbandonsATransaction : Obligations.OnlyResetAbandonsATransaction := by
  refine ⟨fun s t hs h hr x hx => ?_, fun s t h hr => ?_⟩
  · obtain ⟨new, hhistory, -⟩ := step_history hs h hr
    have hmem : x ∈ t.taken ++ t.inflight := by
      rw [hhistory]
      simp [hx]
    exact (List.mem_append.1 hmem).symm
  · rw [eq_resetEdge h hr]
    exact ⟨rfl, rfl, rfl, rfl, rfl⟩

/-- Settles O13: with nothing offered nothing leaves, so the oldest stays and the outputs are set for it. -/
theorem oldestIsOfferedOrWaitsOneEdge : Obligations.OldestIsOfferedOrWaitsOneEdge := by
  intro s t _ h hr hv x xs hi
  obtain ⟨u, new, hu, rfl⟩ := step_of_not_reset h hr
  have htake := takeResponse_of_not_offered (nextPins s) hv
  have hui : u.inflight = x :: (xs ++ new) := by rw [hu.inflight, htake, hi, List.cons_append]
  have huv : u.rspValid = false := by rw [hu.rspValid, htake, hv]
  have hua : u.age = s.age := by rw [hu.age, htake]
  rcases offerResponse_of_waiting (timing s.draws) huv hui with ho | ⟨hage, ho⟩ <;> rw [ho]
  · exact ⟨⟨_, hui⟩, .inl ⟨rfl, rfl⟩⟩
  · exact ⟨⟨_, hui⟩, .inr ⟨huv, congrArg (· + 1) hua, hage⟩⟩

/-! ## Runs -/

/-- A run of `n + 1` steps is a step and a run of `n`. -/
theorem run_succ_iff {n : Nat} {s t : State} :
    core.run (n + 1) s = .next t ↔ ∃ u, step s = .next u ∧ core.run n u = .next t := by
  have hstep : core.step s = step s := rfl
  simp only [Host.Core.run, hstep]
  cases step s <;> simp

theorem step_schedule {s t : State} (h : step s = .next t) : t.schedule = s.schedule.tail := by
  rcases step_cases h with ⟨-, rfl⟩ | ⟨-, -, w, -, rfl⟩ | ⟨-, -, rfl⟩ <;> simp

/-- The host resets at none of the edges that its schedule names. -/
def NoReset (s : State) : Prop := ∀ p ∈ s.schedule, p.rst = false

/-- Past its schedule the host does not reset either (log entry 7). -/
theorem NoReset.nextPins_rst {s : State} (h : NoReset s) : (nextPins s).rst = false := by
  unfold nextPins
  cases hsched : s.schedule with
  | nil =>
    unfold idlePins
    cases s.pending <;> rfl
  | cons p ps => exact h p (by simp [hsched])

theorem NoReset.step {s t : State} (hn : NoReset s) (h : step s = .next t) : NoReset t := fun p hp =>
  hn p (List.mem_of_mem_tail (step_schedule h ▸ hp))

/-- Settles O14, by induction on the run: each edge offers the oldest transaction or counts one edge more. -/
theorem oldestIsOfferedWithinLatency : Obligations.OldestIsOfferedWithinLatency := by
  intro n
  induction n with
  | zero =>
    intro s t hs _ _ _ _ hlat
    exact absurd hs.waits (Nat.not_lt.2 hlat)
  | succ n ih =>
    intro s t hs hrun hn hi hv hlat
    obtain ⟨u, hu, hrun'⟩ := run_succ_iff.1 hrun
    have hn : NoReset s := hn
    obtain ⟨x, xs, hx⟩ := List.exists_cons_of_ne_nil hi
    obtain ⟨⟨ys, hy⟩, ⟨huv, -⟩ | ⟨huv, hage, -⟩⟩ :=
      oldestIsOfferedOrWaitsOneEdge s u hs hu hn.nextPins_rst hv x xs hx
    · exact ⟨1, u, le_rfl, by omega, run_succ_iff.2 ⟨u, hu, rfl⟩, huv, by rw [hy, hx]; rfl⟩
    · obtain ⟨k, v, -, hkn, hkv, hvv, hhead⟩ :=
        ih u t (stepKeepsTheInvariant s u hs hu) hrun' (hn.step hu) (by simp [hy]) huv (by omega)
      exact ⟨k + 1, v, by omega, by omega, run_succ_iff.2 ⟨u, hu, hkv⟩, hvv, by rw [hhead, hy, hx]; rfl⟩

theorem acceptedDuring_succ {s u : State} (n : Nat) (h : step s = .next u) :
    acceptedDuring (n + 1) s = acceptedAt s ++ acceptedDuring n u := by
  rw [acceptedDuring, h]

/-- Settles O16, by induction on the run: each edge adds to the history exactly the request it accepts. -/
theorem historyIsTheSequenceOfAcceptedRequests : Obligations.HistoryIsTheSequenceOfAcceptedRequests := by
  intro n
  induction n with
  | zero =>
    intro s t hs hrun _
    cases hrun
    exact ⟨by simp [acceptedDuring], ⟨[], List.append_nil _⟩, hs.delivered⟩
  | succ n ih =>
    intro s t hs hrun hn
    obtain ⟨u, hu, hrun'⟩ := run_succ_iff.1 hrun
    have hn : NoReset s := hn
    obtain ⟨hreqs, htaken, hresp⟩ := ih u t (stepKeepsTheInvariant s u hs hu) hrun' (hn.step hu)
    obtain ⟨new, hhistory, hnew, -⟩ := step_history hs hu hn.nextPins_rst
    obtain ⟨gone, hgone, -⟩ := step_taken hs hu hn.nextPins_rst
    rw [(noStepChangesTheRom s u hu).1] at hresp
    have hkept : s.taken <+: u.taken := ⟨gone, hgone.symm⟩
    refine ⟨?_, hkept.trans htaken, hresp⟩
    rw [hreqs, hhistory, acceptedDuring_succ n hu, List.map_append, hnew, List.append_assoc]

end Sys2Proof.Machine
